-- ==== Sys2Proof/Word.lean ====
section
/-! DEFINITION. The two ways the block writes bits down: a string of symbols, and a vector register.

There are no bytes and no fixed word in this hardware (`20_memory.md` R52), and the size of every vector register
is the open parameter `N_MAX`, which may be infinite (`00_scope.md` R5: "bit strings as lists, integers as
naturals"). So a VECTOR register is a `Nat` read by its binary digits: bit index `j` of the vector `x` is
`x.testBit j`, index 0 least significant (R52: position `i` is index `i - 1`; R53: bit `k` has weight `2^k`), which
is also how the spec prints vectors (`0110011` is `0x66`). That a finite instance's registers fit their widths, and
that no rule's arithmetic overflows (`10_state.md` R22), is the invariant of `Safety.lean`. -/

namespace Sys2Proof

/-- HCS's `BitString`, first symbol first (`00_scope.md` R6). -/
abbrev BitString := List Bool

end Sys2Proof
end

