-- ==== Sys2Proof/Config.lean ====
section
/-! DEFINITION. What is fixed when an instance of the block is built (`10_state.md` R45): the parameters
the spec leaves OPEN, and the one value left free. -/

namespace Sys2Proof

/-- The value left free: the parameter `ERRPOS_UNCORR` where it is neither of the two functions the spec
names (`00_scope.md` R17 item 6, `92_eei_decisions.md` D9, U5 of `93_implementation_defined.md`: treatment
`parameter`). It has no body, so nothing can be proved about its values. Assumption log 4. -/
opaque Config.errposOther : Nat → Nat

/-- The parameter `ERRPOS_UNCORR`, the function that gives `res_errpos` from a syndrome greater than `n`
(`10_state.md` R39, D9). -/
inductive ErrposUncorr where
  /-- the default: the syndrome itself -/
  | syndrome
  /-- "the other sensible instance is the constant 0" (D9) -/
  | zero
  /-- any other function of the syndrome: `Config.errposOther` -/
  | other
  deriving DecidableEq, Repr

/-- The parameters of one instance (`00_scope.md` R5, `10_state.md` R45). -/
structure Params where
  /-- `N_MAX`, the longest codeword held; `none` is the instance `N_MAX = ∞` -/
  nMax : Option Nat
  /-- `ERRPOS_UNCORR` -/
  errpos : ErrposUncorr
  /-- `TRACE_EN`: whether the instance has the trace port (`10_state.md` R41) -/
  traceEn : Bool
  deriving DecidableEq, Repr

/-- The reference instance of `00_scope.md` R5: `N_MAX = 15`, `ERRPOS_UNCORR` the default, the trace port
present (`95_test_vectors.md` section 3: "with `TRACE_EN` on"). -/
def Params.reference : Params := { nMax := some 15, errpos := .syndrome, traceEn := true }

end Sys2Proof
end

