-- ==== Sys2Proof/Syntax.lean ====
section
/-! DEFINITION. The block's two operations (`30_encoding.md` R73, R76): the opcode map has two entries and is
complete. -/

namespace Sys2Proof

/-- Which operation (`10_state.md` R24). -/
inductive Op where
  | enc
  | dec
  deriving DecidableEq, Repr

/-- One command: an operation with its one operand, a bit string given as the pair `(len, bits)`
(`30_encoding.md` R71, R74). -/
inductive Instr where
  /-- `ENC`, row 1 of the opcode table: encode the data string (`40_encoder.md` R102) -/
  | enc (len : Nat) (bits : Nat)
  /-- `DEC`, row 2 of the opcode table: decode the received string (`41_decoder.md` R133) -/
  | dec (len : Nat) (bits : Nat)
  deriving DecidableEq, Repr

end Sys2Proof
end

