-- ==== Sys2Proof/Machine/Widths.lean ====
section
/-! DEFINITION. The widths derived from `N_MAX` (the table of `00_scope.md` R5) and the three port fields of a
command. `M_MAX` needs the redundancy and stands in `Machine/Encoder.lean`. -/

namespace Sys2Proof.Machine

/-- `bitlen(v)`, the number of binary digits of `v`, `bitlen(0) = 0` (`00_scope.md` R5). -/
def bitlen (v : Nat) : Nat := if v = 0 then 0 else Nat.log2 v + 1

/-- `LW`: the width of every length and position register. -/
def lw (nMax : Nat) : Nat := bitlen nMax

/-- `R_MAX`: the number of powers of two not exceeding `N_MAX`. -/
def rMax (nMax : Nat) : Nat := bitlen nMax

/-- `RW`: the width of the parity counters `r` and `k`. -/
def rw (nMax : Nat) : Nat := bitlen (rMax nMax)

/-- `SW`: the width of the syndrome. -/
def sw (nMax : Nat) : Nat := rMax nMax

/-- The width of a command word, `1 + LW + N_MAX` (`30_encoding.md` R70). -/
def wordWidth (nMax : Nat) : Nat := 1 + lw nMax + nMax

/-- The code of an operation on the wire `cmd_op` (`30_encoding.md` R73). -/
def opCode : Op → Nat
  | .enc => 0
  | .dec => 1

/-- The three port fields of a command (`30_encoding.md` R71). -/
def instrOp : Instr → Op
  | .enc _ _ => .enc
  | .dec _ _ => .dec

/-- The field `len`. -/
def instrLen : Instr → Nat
  | .enc len _ => len
  | .dec len _ => len

/-- The field `bits`. -/
def instrBits : Instr → Nat
  | .enc _ bits => bits
  | .dec _ bits => bits

/-- The command that three port fields spell: every value of `op` is assigned (`30_encoding.md` R73, R76). -/
def instrOfFields (op : Op) (len : Nat) (bits : Nat) : Instr :=
  match op with
  | .enc => .enc len bits
  | .dec => .dec len bits

/-- `cmd_len` has `LW` wires (`10_state.md` R42); an instance with `N_MAX = ∞` has no bound. -/
def lenOnPort (c : Params) (len : Nat) : Bool :=
  match c.nMax with
  | none => true
  | some nMax => decide (len < 2 ^ lw nMax)

/-- `cmd_bits` has `N_MAX` wires (`10_state.md` R42). -/
def bitsOnPort (c : Params) (bits : Nat) : Bool :=
  match c.nMax with
  | none => true
  | some nMax => decide (bits < 2 ^ nMax)

end Sys2Proof.Machine
end

