-- ==== Sys2Proof/WellFormed.lean ====
section
/-! DEFINITION. Which commands the command port of an instance can carry (`30_encoding.md` R71: `len` is `LW`
bits, `bits` is `N_MAX` bits). Operand values the spec calls invalid (`30_encoding.md` R77) are well formed: the
block accepts them and reports a condition. -/

namespace Sys2Proof

/-- The command fits the port of the instance. -/
def Instr.wellFormed (c : Params) (i : Instr) : Bool :=
  Machine.lenOnPort c (Machine.instrLen i) && Machine.bitsOnPort c (Machine.instrBits i)

/-- `Instr.wellFormed` as a proposition. -/
abbrev WellFormed (c : Params) (i : Instr) : Prop := i.wellFormed c = true

end Sys2Proof
end

