-- ==== Sys2Proof/Decode.lean ====
section
/-! DEFINITION. The command word `W = bits ++ len ++ op` (`30_encoding.md` R72), read and written. A word is one
number; there are no bytes and so no byte order (`20_memory.md` R52). -/

namespace Sys2Proof

/-- Why a number is no command word. -/
inductive DecodeError where
  /-- the instance is `N_MAX = ∞`, for which R72 gives no word: only the three port fields exist -/
  | noWordFormat
  /-- the number has a 1 at or above bit `1 + LW + N_MAX` (`30_encoding.md` R70: the fixed length) -/
  | tooWide
  deriving DecidableEq, Repr

/-- `W[0]` (`30_encoding.md` R72, R73). -/
def wordOp (w : Nat) : Op := if w % 2 = 0 then .enc else .dec

/-- `W[LW:1]`. -/
def wordLen (nMax w : Nat) : Nat := w / 2 % 2 ^ Machine.lw nMax

/-- `W[LW+N_MAX : LW+1]`, for a word of the fixed length. -/
def wordBits (nMax w : Nat) : Nat := w / 2 ^ (1 + Machine.lw nMax)

/-- The decoder of command words (`30_encoding.md` R73). It is total, and refuses no word of the fixed length
(R76: no word is reserved). -/
def decode (c : Params) (w : Nat) : Except DecodeError Instr :=
  match c.nMax with
  | none => .error .noWordFormat
  | some nMax =>
    if w < 2 ^ Machine.wordWidth nMax then
      .ok (Machine.instrOfFields (wordOp w) (wordLen nMax w) (wordBits nMax w))
    else .error .tooWide

/-- The command word of a command, for the instances that have one (`30_encoding.md` R72: `W[0] = op`,
`W[LW:1] = len`, `W[LW+N_MAX : LW+1] = bits`). -/
def encode (c : Params) (i : Instr) : Option Nat :=
  match c.nMax with
  | none => none
  | some nMax =>
    some (Machine.instrBits i * 2 ^ (1 + Machine.lw nMax) + Machine.instrLen i * 2
      + Machine.opCode (Machine.instrOp i))

/-- The instruction the decoder reads from a word of `spec/opcode_table.json`, whose rows are words of the
reference instance; bits at and above `nbits` are 0. -/
def decodeTableWord (nbits w : Nat) : Option Instr :=
  match decode Params.reference (w % 2 ^ nbits) with
  | .ok i => some i
  | .error _ => none

end Sys2Proof
end

