-- ==== Sys2Proof/Machine/State.lean ====
section
/-! DEFINITION. The state as plain data: the registers of `10_state.md` R20 (`Regs`), beside them the parameters
of the instance and what the host will drive next, which the spec makes arguments of the step relation
(`42_sequencer.md` R150) and which stand in `State` because the interface's step takes only a state. -/

namespace Sys2Proof.Machine

/-- The six phases (`10_state.md` R21). The index of `ParityBits(k)` is the register `k`. The codes 6 and 7 are not
represented (R21, U9 of `93_implementation_defined.md`). -/
inductive Phase where
  | idle
  | inputReceived
  | sizingComputed
  | layoutBuilt
  | parityBits
  | finalized
  deriving DecidableEq, Repr

/-- The four values of `status` (`60_exceptions.md` R185). -/
inductive Status where
  | ok
  | emptyInput
  | uncorrectableSyndrome
  | lengthOverflow
  deriving DecidableEq, Repr

/-- The reported conditions with their information (`60_exceptions.md` R181 to R184). -/
inductive Condition where
  /-- a `DEC` of the empty string (R181) -/
  | emptyInput
  /-- a syndrome greater than the codeword length, with the syndrome (R182) -/
  | uncorrectableSyndrome (s : Nat)
  /-- the codeword does not fit the instance (R184) -/
  | lengthOverflow
  deriving DecidableEq, Repr

/-- What `LOCATE` answers (`41_decoder.md` R126). -/
inductive Located where
  | noError
  | correct (s : Nat)
  | uncorrectable (s : Nat)
  deriving DecidableEq, Repr

/-- One tested candidate of `SIZE`: `(r, 2^r, m + r + 1, verdict)` (`40_encoder.md` R91). -/
structure Candidate where
  r : Nat
  pow : Nat
  need : Nat
  verdict : Bool
  deriving DecidableEq, Repr

/-- One cell of the layout event (`42_sequencer.md` R170). -/
inductive LayoutCell where
  | data (b : Bool)
  | unresolved
  deriving DecidableEq, Repr

/-- The content of `EvCorrection` (`42_sequencer.md` R170). -/
inductive Correction where
  | noError
  | corrected (s : Nat) (old new : Bool)
  | uncorrectable (s : Nat)
  deriving DecidableEq, Repr

/-- The trace events (`42_sequencer.md` R170), without any text. -/
inductive Event where
  | input (op : Op) (len : Nat) (s : BitString)
  | refused (cond : Condition)
  | sizing (m : Nat) (cands : List Candidate)
  | parityPositions (pp : List Nat)
  | layout (n : Nat) (cells : List LayoutCell)
  | parity (p : Nat) (covers : List Nat) (values : List Bool) (v : Bool)
  | finalCodeword (cw : BitString)
  | syndrome (failed : List Nat) (s : Nat) (chk : List Bool)
  | correction (o : Correction)
  | extract (d : BitString)
  deriving DecidableEq, Repr

/-- HCS's `ParityRecord` (`00_scope.md` R14, `40_encoder.md` R101, `41_decoder.md` R123). -/
structure ParityRecord where
  position : Nat
  covers : List Nat
  value : Bool
  deriving DecidableEq, Repr

/-- The result of HCS's contract `encode(data)` (`40_encoder.md` R102). -/
structure EncResult where
  codeword : BitString
  parityPositions : List Nat
  parityCalculations : List ParityRecord
  dataBits : BitString
  trace : List Event
  deriving DecidableEq, Repr

/-- The result of HCS's contract `decode(received)` (`41_decoder.md` R133). -/
structure DecResult where
  parityChecks : List ParityRecord
  syndrome : Nat
  errorPosition : Nat
  correctedCodeword : BitString
  dataBits : BitString
  parityPositions : List Nat
  trace : List Event
  deriving DecidableEq, Repr

/-- "The complete state of one `HAMCORE` instance is the following registers and nothing else" (`10_state.md`
R20), in the order of that table. -/
structure Regs where
  /-- the phase register (R21) -/
  ph : Phase
  /-- the parity index (R23) -/
  k : Nat
  /-- the accepted operation (R24) -/
  op : Op
  /-- the length of the input string (R25) -/
  len : Nat
  /-- the input string (R26) -/
  inb : Nat
  /-- the number of parity positions (R27) -/
  r : Nat
  /-- the codeword length (R28) -/
  n : Nat
  /-- the working buffer (R29) -/
  buf : Nat
  /-- one bit for each parity position (R30) -/
  chk : Nat
  /-- the reported condition (R31) -/
  status : Status
  /-- results valid (R32) -/
  done : Bool
  /-- a decode computed a non-zero syndrome (R33) -/
  fErr : Bool
  /-- a decode flipped a bit (R33) -/
  fCorr : Bool
  /-- `codeword` or `correctedCodeword` (R34) -/
  resCw : Nat
  /-- its length (R34) -/
  resCwLen : Nat
  /-- `dataBits` (R35) -/
  resData : Nat
  /-- its length (R35) -/
  resDataLen : Nat
  /-- the size of `parityPositions` (R36) -/
  resR : Nat
  /-- the values of the parity records (R37) -/
  resChk : Nat
  /-- `syndrome` (R38) -/
  resSyndrome : Nat
  /-- `errorPosition` (R39) -/
  resErrpos : Nat
  /-- the trace (R41) -/
  trace : List Event
  deriving DecidableEq, Repr

/-- The reset state, register by register (`10_state.md` R46). -/
def Regs.reset : Regs where
  ph := .idle
  k := 0
  op := .enc
  len := 0
  inb := 0
  r := 0
  n := 0
  buf := 0
  chk := 0
  status := .ok
  done := false
  fErr := false
  fCorr := false
  resCw := 0
  resCwLen := 0
  resData := 0
  resDataLen := 0
  resR := 0
  resChk := 0
  resSyndrome := 0
  resErrpos := 0
  trace := []

/-- The input ports at one rising edge of `clk` (`10_state.md` R42). -/
structure Pins where
  rst : Bool
  cmdValid : Bool
  cmdOp : Op
  cmdLen : Nat
  cmdBits : Nat
  deriving DecidableEq, Repr

/-- How a host writes one command down: its command word (`30_encoding.md` R72), the three port fields
side by side (R71), or an operation on a result of the previous command, read when the command runs (R79; `FLIP`, R80).
Assumption log 11; where no result is valid, assumption log 14. -/
inductive CmdForm where
  | word (w : Nat)
  | fields (op : Op) (len : Nat) (bits : Nat)
  /-- `$cw`, after `FLIP q` for each listed 1-based position `q` in turn -/
  | prevCodeword (op : Op) (flips : List Nat)
  /-- `$data` -/
  | prevData (op : Op)
  deriving DecidableEq, Repr

/-- What the host does next. Assumption log 2. -/
inductive HostAct where
  /-- drive the ports for one rising edge of `clk` -/
  | edge (p : Pins)
  /-- one line of a program (`30_encoding.md` R79), carried out as `70_reset_and_hazards.md` R206 and R207 ask:
  present the command for exactly one step when `busy = 0`, then leave the port quiet until `done = 1` -/
  | command (f : CmdForm)
  deriving DecidableEq, Repr

/-- The machine: one instance, its registers, and what its host will do, in order. After the last listed act
the host leaves the ports quiet. -/
structure State where
  params : Params
  regs : Regs
  host : List HostAct
  deriving DecidableEq, Repr

/-- Why the machine stops. The spec has no trap and no stop of any kind (`60_exceptions.md` R180, R186): the one
reason here is that none of the transitions T0 to T9 applies, which no reachable state shows. -/
inductive Fault where
  /-- Raised by `tick` in `LayoutBuilt` with `r = 0` and `op = DEC`, and in `ParityBits` with `k ≥ r`: the table of
  `42_sequencer.md` R150 has no row for these. Safe: the machine stops where the hardware would go on, in states
  no run from reset reaches. Assumption log 5. -/
  | noTransition
  deriving DecidableEq, Repr

/-- Why a host act has no meaning. None of these is raised by an instruction's meaning. -/
inductive Refusal where
  /-- an instruction without a meaning; unused, since both instructions have one. Safe. -/
  | notModelled (mnemonic : String)
  /-- Raised by `step` for a number that is no command word of the instance (`DecodeError`). Safe: no such command
  can be presented. -/
  | notACommandWord (e : DecodeError)
  /-- Raised by `step` for port values wider than the port of the instance. Safe: the wires do not exist.
  Assumption log 6. -/
  | notOnPort
  /-- Raised by `step` for a program line on `$cw` or `$data` when the block is not busy and `done = 0`, so that there is no
  result to read (`70_reset_and_hazards.md` R206, U10 of `93_implementation_defined.md`). Safe: the host rule forbids the
  read. Assumption log 14. -/
  | noResult
  deriving DecidableEq, Repr

/-- The machine right after reset: the reference instance in the reset state of `10_state.md` R46, with nothing
driven at its ports. The choice of the instance is assumption log 1. -/
def State.reset : State where
  params := Params.reference
  regs := Regs.reset
  host := []

end Sys2Proof.Machine
end

