-- ==== Sys2Proof/Machine/Ops.lean ====
section
/-! DEFINITION. The shared operations: strings and vectors, the position space and its accesses, covers and XOR,
the trace, and the report of a condition, which is what this hardware has in the place of taking an exception
(`60_exceptions.md` R186). There is no return from one (R189). -/

namespace Sys2Proof.Machine

/-! ### Vectors and strings (`20_memory.md` R52) -/

/-- `x[j] <- v` (`00_scope.md` R9). -/
def setBit (x : Nat) (j : Nat) (v : Bool) : Nat :=
  if x.testBit j = v then x else x ^^^ 2 ^ j

/-- The vector whose index `j` holds the `(j+1)`-th symbol of the string, 0 beyond it. -/
def ofBits : BitString → Nat
  | [] => 0
  | b :: bs => b.toNat + 2 * ofBits bs

/-- The first `len` symbols of a vector, as a string. -/
def toBits (len : Nat) (x : Nat) : BitString := (List.range len).map x.testBit

/-! ### The position space (`20_memory.md` R50, R51, `00_scope.md` R7, R9) -/

/-- `MemRead(i, 1)`: the bit at the 1-based position `i`, used only for `1 ≤ i ≤ n` (`20_memory.md` R55). -/
def memRead (buf : Nat) (i : Nat) : Bool := buf.testBit (i - 1)

/-- `MemWrite(i, 1, v)`, used only for `1 ≤ i ≤ n`. -/
def memWrite (buf : Nat) (i : Nat) (v : Bool) : Nat := setBit buf (i - 1) v

/-- The positions `1..n`, ascending. -/
def positions (n : Nat) : List Nat := List.range' 1 n

/-- A position is a parity position when it is a power of two, `i AND (i - 1) = 0` (`00_scope.md` R10,
`20_memory.md` R51). -/
def isParityPos (i : Nat) : Bool := i != 0 && i &&& (i - 1) == 0

/-- The ascending list of the parity positions, the set `PP` of an operation with `r` of them (`00_scope.md` R10,
`10_state.md` R27, R36). -/
def parityPositions (r : Nat) : List Nat := (List.range r).map (2 ^ ·)

/-- The ascending list of the data positions of `1..n` (`20_memory.md` R51). -/
def dataPositions (n : Nat) : List Nat := (positions n).filter fun i => !isParityPos i

/-- `DataPos(j)`, the `j`-th smallest positive integer that is not a power of two, for `j ≥ 1`
(`20_memory.md` R54); the first `2j + 1` positions hold at least `j` of them. -/
def dataPos (j : Nat) : Nat := (dataPositions (2 * j + 1)).getD (j - 1) 0

/-! ### Covers and parities (`00_scope.md` R8, R11) -/

/-- `Cover(p, n)`. -/
def cover (p n : Nat) : List Nat := (positions n).filter fun i => i &&& p == p

/-- The XOR of a list of bits; 0 for the empty list. The grouping is not observable (`40_encoder.md` R100). -/
def xorAll : List Bool → Bool
  | [] => false
  | b :: bs => b ^^ xorAll bs

/-- The bits at the positions `p` covers, ascending. -/
def coverValues (buf : Nat) (n p : Nat) : List Bool := (cover p n).map (memRead buf)

/-- `XOR_{i in Cover(p, n)} MemRead(i, 1)`. -/
def coverParity (buf : Nat) (n p : Nat) : Bool := xorAll (coverValues buf n p)

/-- The parity records (`10_state.md` R37, `40_encoder.md` R101, `41_decoder.md` R123). -/
def parityRecords (r n : Nat) (chk : Nat) : List ParityRecord :=
  (List.range r).map fun k => { position := 2 ^ k, covers := cover (2 ^ k) n, value := chk.testBit k }

/-! ### The trace (`10_state.md` R41, `42_sequencer.md` R172) -/

/-- Append events, in an instance that has the trace port. Assumption log 7. -/
def emit (c : Params) (evs : List Event) (σ : Regs) : Regs :=
  if c.traceEn then { σ with trace := σ.trace ++ evs } else σ

/-! ### Reporting a condition (`60_exceptions.md` R185, R186) -/

/-- The code a condition leaves in `status`. -/
def conditionStatus : Condition → Status
  | .emptyInput => .emptyInput
  | .uncorrectableSyndrome _ => .uncorrectableSyndrome
  | .lengthOverflow => .lengthOverflow

/-- `raise C(info)`: `status <- code(C)` and the information, the syndrome, to its result register. Nothing else
happens: nothing is saved, no mode changes and control goes nowhere (R186). -/
def raise (cond : Condition) (σ : Regs) : Regs :=
  match cond with
  | .uncorrectableSyndrome s => { σ with status := conditionStatus cond, resSyndrome := s }
  | .emptyInput => { σ with status := conditionStatus cond }
  | .lengthOverflow => { σ with status := conditionStatus cond }

end Sys2Proof.Machine
end

