-- ==== Sys2Proof/Machine/Flags.lean ====
section
/-! DEFINITION. The flags and codes the host reads. The block has no other condition codes (`10_state.md` R33). -/

namespace Sys2Proof.Machine

/-- `f_err`: the decode computed a non-zero syndrome (`41_decoder.md` R124). -/
def flagErr (s : Nat) : Bool := s != 0

/-- `f_corr`: the decode flipped a bit (`41_decoder.md` R126). -/
def flagCorr : Located → Bool
  | .noError => false
  | .correct _ => true
  | .uncorrectable _ => false

/-- The port `busy`: 1 in the four phases between acceptance and `Finalized` (`10_state.md` R21). -/
def busy (σ : Regs) : Bool :=
  match σ.ph with
  | .idle => false
  | .inputReceived => true
  | .sizingComputed => true
  | .layoutBuilt => true
  | .parityBits => true
  | .finalized => false

/-- The codes of `ph` (`10_state.md` R21). -/
def phaseCode : Phase → Nat
  | .idle => 0
  | .inputReceived => 1
  | .sizingComputed => 2
  | .layoutBuilt => 3
  | .parityBits => 4
  | .finalized => 5

/-- The codes of `status` (`60_exceptions.md` R185). -/
def statusCode : Status → Nat
  | .ok => 0
  | .emptyInput => 1
  | .uncorrectableSyndrome => 2
  | .lengthOverflow => 3

end Sys2Proof.Machine
end

