-- ==== Sys2Proof/Machine/Operands.lean ====
section
/-! DEFINITION. The one operand form, a bit string given as `(len, bits)` (`30_encoding.md` R74), the latching of
it at acceptance, the ways a host writes a command down, and the results as strings. Program text is in
`Machine/Assembler.lean`. -/

namespace Sys2Proof.Machine

/-- Whether a codeword length fits the instance; always, for `N_MAX = ∞` (`60_exceptions.md` R184). -/
def fitsCapacity (c : Params) (n : Nat) : Bool :=
  match c.nMax with
  | none => true
  | some nMax => decide (n ≤ nMax)

/-- `min(len, N_MAX)`: how many symbols of an operand the instance's vectors hold. -/
def heldLen (c : Params) (len : Nat) : Nat :=
  match c.nMax with
  | none => len
  | some nMax => min len nMax

/-- `inb[j] <- (if j < cmd_len then cmd_bits[j] else 0)`, for `j` in `0..N_MAX-1` (`42_sequencer.md` R153,
`30_encoding.md` R75). -/
def latch (c : Params) (len : Nat) (bits : Nat) : Nat := bits % 2 ^ heldLen c len

/-- The operand string of a command, `[bits[j] : j in 0..len-1]` (`30_encoding.md` R74). -/
def operandString (i : Instr) : BitString := toBits (instrLen i) (instrBits i)

/-- The bits the `N_MAX` wires of `cmd_bits` carry of a vector. Assumption log 10. -/
def onBitsPort (c : Params) (bits : Nat) : Nat :=
  match c.nMax with
  | none => bits
  | some nMax => bits % 2 ^ nMax

/-- One program line `ENC <bitstring>` or `DEC <bitstring>` as the port fields it stands for: `len` the number of
symbols, symbol `j + 1` at index `j` (`30_encoding.md` R71, R79). -/
def assemble (c : Params) (op : Op) (d : BitString) : CmdForm :=
  .fields op d.length (onBitsPort c (ofBits d))

/-- The environment's `injectAt(codeword, position)`, with a 0-based index: the codeword with that bit flipped, or
`none` for `OutOfRange` (`00_scope.md` R16). -/
def injectAt (cw : BitString) (index : Nat) : Option BitString :=
  if index < cw.length then some (cw.set index (!cw.getD index false)) else none

/-- The host's `FLIP q`: `injectAt` with index `q - 1`; no change for `q < 1` or `q` beyond the length
(`30_encoding.md` R80). -/
def flip (cw : BitString) (q : Nat) : BitString :=
  if q = 0 then cw
  else
    match injectAt cw (q - 1) with
    | some cw' => cw'
    | none => cw

/-- The field `codeword` or `correctedCodeword` (`10_state.md` R34), and `$cw`, the previous `res_cw` as a string
(`30_encoding.md` R79). -/
def codewordString (σ : Regs) : BitString := toBits σ.resCwLen σ.resCw

/-- The field `dataBits` (`10_state.md` R35), and `$data`, the previous `res_data` (`30_encoding.md` R79). -/
def dataString (σ : Regs) : BitString := toBits σ.resDataLen σ.resData

/-- The field `parityPositions` (`10_state.md` R36). -/
def resParityPositions (σ : Regs) : List Nat := parityPositions σ.resR

/-- The field `parityCalculations` or `parityChecks` (`10_state.md` R37). -/
def resParityRecords (σ : Regs) : List ParityRecord := parityRecords σ.resR σ.resCwLen σ.resChk

/-- The command that port fields spell, if the port can carry them. -/
def readFields (c : Params) (op : Op) (len : Nat) (bits : Nat) : Except Refusal Instr :=
  if (instrOfFields op len bits).wellFormed c then .ok (instrOfFields op len bits) else .error .notOnPort

/-- The command with a string of the host as its operand, if the port can carry it. -/
def readString (c : Params) (op : Op) (d : BitString) : Except Refusal Instr := readFields c op d.length (ofBits d)

/-- The command with a previous result as its operand. The host reads results only when `done = 1`
(`70_reset_and_hazards.md` R206; U10: "a host model must test `done`"); with `done = 0` the line is refused by name. -/
def readResult (c : Params) (σ : Regs) (op : Op) (d : BitString) : Except Refusal Instr :=
  if σ.done then readString c op d else .error .noResult

/-- Read one host command: decode a command word, take the port fields, or take a previous result as the operand. -/
def readCommand (c : Params) (σ : Regs) : CmdForm → Except Refusal Instr
  | .word w =>
    match decode c w with
    | .ok i => .ok i
    | .error e => .error (.notACommandWord e)
  | .fields op len bits => readFields c op len bits
  | .prevCodeword op flips => readResult c σ op (flips.foldl flip (codewordString σ))
  | .prevData op => readResult c σ op (dataString σ)

/-- Whether the port of the instance can carry these values (`10_state.md` R42). -/
def pinsOnPort (c : Params) (p : Pins) : Bool := lenOnPort c p.cmdLen && bitsOnPort c p.cmdBits

/-- The ports with no command and no reset. -/
def quietPins : Pins := { rst := false, cmdValid := false, cmdOp := .enc, cmdLen := 0, cmdBits := 0 }

/-- The ports presenting a command (`30_encoding.md` R70: one assertion of `cmd_valid` for one step). -/
def presentPins (i : Instr) : Pins :=
  { rst := false, cmdValid := true, cmdOp := instrOp i, cmdLen := instrLen i, cmdBits := instrBits i }

end Sys2Proof.Machine
end

