-- ==== Sys2Proof/Machine/Encoder.lean ====
section
/-! DEFINITION. The encoder's units `SIZE`, `PLACE` and `PARITY`, and the operation `ENC` as a function of its
operand (`40_encoder.md`). -/

namespace Sys2Proof.Machine

/-! ### SIZE (`40_encoder.md` R90, R91) -/

/-- The predicate of the search, `2^r ≥ m + r + 1`, in the naturals (`00_scope.md` R8). -/
def sizeOk (m r : Nat) : Bool := decide (m + r + 1 ≤ 2 ^ r)

/-- `while not (2^r >= m + r + 1): r <- r + 1`, with at most `fuel` turns. -/
def sizeLoop (m : Nat) : Nat → Nat → Nat
  | 0, r => r
  | fuel + 1, r => if sizeOk m r then r else sizeLoop m fuel (r + 1)

/-- `R(m)`, the redundancy; the search ends within `m + 1` turns (R91: `R(m) ≤ m + 1`). -/
def redundancy (m : Nat) : Nat := sizeLoop m (m + 1) 0

/-- The tested candidates `0, 1, ..., R(m)` in that order (R91). -/
def candidates (m : Nat) : List Candidate :=
  (List.range (redundancy m + 1)).map fun r =>
    { r := r, pow := 2 ^ r, need := m + r + 1, verdict := sizeOk m r }

/-- The largest `m ≤ bound` with `m + R(m) ≤ N_MAX`. -/
def mMaxLoop (nMax : Nat) : Nat → Nat
  | 0 => 0
  | m + 1 => if m + 1 + redundancy (m + 1) ≤ nMax then m + 1 else mMaxLoop nMax m

/-- `M_MAX`, the longest data string `ENC` accepts (`00_scope.md` R5). -/
def mMax (nMax : Nat) : Nat := mMaxLoop nMax nMax

/-! ### PLACE (`40_encoder.md` R94, R96) -/

/-- The walk of `PLACE` over a list of positions, with `j` data bits used already. A placeholder is written 0. -/
def placeWalk (inb : Nat) : List Nat → Nat → Nat → Nat
  | [], _, buf => buf
  | i :: is, j, buf =>
    if isParityPos i then placeWalk inb is j (memWrite buf i false)
    else placeWalk inb is (j + 1) (memWrite buf i (inb.testBit j))

/-- `PLACE`: the layout at positions `1..n`. -/
def place (inb : Nat) (n : Nat) : Nat := placeWalk inb (positions n) 0 0

/-- The cells of the layout event (`42_sequencer.md` R170). -/
def layoutCells (buf : Nat) (n : Nat) : List LayoutCell :=
  (positions n).map fun i => if isParityPos i then .unresolved else .data (memRead buf i)

/-! ### PARITY (`40_encoder.md` R97) -/

/-- `PARITY(k)` on the buffer: the parity of the cover, written to position `2^k`. -/
def parityBuf (n k : Nat) (buf : Nat) : Nat := memWrite buf (2 ^ k) (coverParity buf n (2 ^ k))

/-- `PARITY(k)` on the pair `(buf, chk)`. -/
def parityUnit (n k : Nat) (st : Nat × Nat) : Nat × Nat :=
  (parityBuf n k st.1, setBit st.2 k (coverParity st.1 n (2 ^ k)))

/-! ### ENC as a function (`40_encoder.md` R102) -/

/-- The buffer and the parity bits after `PLACE` and `PARITY(0)`, ..., `PARITY(r-1)` in ascending order (R98). -/
def encodeBuffers (d : BitString) : Nat × Nat :=
  (List.range (redundancy d.length)).foldl (fun st k => parityUnit (d.length + redundancy d.length) k st)
    (place (ofBits d) (d.length + redundancy d.length), 0)

/-- The parity event of one index, the values read from the buffer given. -/
def parityEvent (buf : Nat) (n k : Nat) : Event :=
  .parity (2 ^ k) (cover (2 ^ k) n) (coverValues buf n (2 ^ k)) (coverParity buf n (2 ^ k))

/-- The trace of an encode (`42_sequencer.md` R170, R171). Every `PARITY` reads the layout: no cover holds another
parity position (`40_encoder.md` R99). -/
def encodeTrace (d : BitString) : List Event :=
  let r := redundancy d.length
  let n := d.length + r
  let layout := place (ofBits d) n
  [.input .enc d.length d, .sizing d.length (candidates d.length), .parityPositions (parityPositions r),
    .layout n (layoutCells layout n)]
  ++ (List.range r).map (parityEvent layout n)
  ++ [.finalCodeword (toBits n (encodeBuffers d).1)]

/-- `ENC(d)`. -/
def hammingEncode (d : BitString) : EncResult :=
  let r := redundancy d.length
  let n := d.length + r
  { codeword := toBits n (encodeBuffers d).1
    parityPositions := parityPositions r
    parityCalculations := parityRecords r n (encodeBuffers d).2
    dataBits := d
    trace := encodeTrace d }

end Sys2Proof.Machine
end

