-- ==== Sys2Proof/Machine/Decoder.lean ====
section
/-! DEFINITION. The decoder's units `PPID`, `CHECK`, `SYNDROME`, `LOCATE`, `CORRECT` and `EXTRACT`, and the
operation `DEC` as a function of its operand (`41_decoder.md`). -/

namespace Sys2Proof.Machine

/-! ### PPID (`41_decoder.md` R120) -/

/-- `while 2^r <= n: r <- r + 1`, with at most `fuel` turns. -/
def ppidLoop (n : Nat) : Nat → Nat → Nat
  | 0, r => r
  | fuel + 1, r => if 2 ^ r ≤ n then ppidLoop n fuel (r + 1) else r

/-- The number of powers of two not exceeding `n`; `n` turns are enough, since `2^n > n`. -/
def ppid (n : Nat) : Nat := ppidLoop n n 0

/-! ### CHECK and SYNDROME (`41_decoder.md` R122, R124) -/

/-- `CHECK(k)`: 0 = pass, 1 = fail. It writes nothing but `chk[k]`. -/
def checkUnit (buf : Nat) (n k : Nat) (chk : Nat) : Nat := setBit chk k (coverParity buf n (2 ^ k))

/-- The positions whose check failed, ascending. -/
def failedPositions (chk : Nat) (r : Nat) : List Nat := ((List.range r).filter chk.testBit).map (2 ^ ·)

/-- `SYNDROME`: their sum, in the naturals. -/
def syndrome (chk : Nat) (r : Nat) : Nat := (failedPositions chk r).sum

/-! ### LOCATE (`41_decoder.md` R126, R127) -/

/-- The three cases, exhaustive and exclusive. -/
def locate (s n : Nat) : Located :=
  if s = 0 then .noError else if s ≤ n then .correct s else .uncorrectable s

/-- A value as `res_errpos` of a finite instance holds it, `SW` bits. -/
def onErrpos (c : Params) (v : Nat) : Nat :=
  match c.nMax with
  | none => v
  | some nMax => v % 2 ^ sw nMax

/-- The parameter `ERRPOS_UNCORR` applied to a syndrome (`10_state.md` R39). Assumption log 4. -/
def errposUncorr (c : Params) (s : Nat) : Nat :=
  match c.errpos with
  | .syndrome => s
  | .zero => 0
  | .other => onErrpos c (Config.errposOther s)

/-- The field `errorPosition` (R127). -/
def errorPosition (c : Params) : Located → Nat
  | .noError => 0
  | .correct s => s
  | .uncorrectable s => errposUncorr c s

/-! ### CORRECT (`41_decoder.md` R128, R129) -/

/-- A copy of the word with position `s` flipped in the case `Correct(s)`, unchanged in the others. -/
def correct (buf : Nat) : Located → Nat
  | .noError => buf
  | .correct s => memWrite buf s (!memRead buf s)
  | .uncorrectable _ => buf

/-- The correction event: the bit at `s` before and after (`42_sequencer.md` R170). -/
def correctionOf (buf : Nat) (loc : Located) : Correction :=
  match loc with
  | .noError => .noError
  | .correct s => .corrected s (memRead buf s) (memRead (correct buf loc) s)
  | .uncorrectable s => .uncorrectable s

/-! ### EXTRACT (`41_decoder.md` R131) -/

/-- The bits at every position that is not a parity position, ascending. -/
def extract (cc : Nat) (n : Nat) : BitString := (dataPositions n).map (memRead cc)

/-! ### DEC as a function (`41_decoder.md` R133) -/

/-- The check bits after `CHECK(0)`, ..., `CHECK(r-1)`, ascending. -/
def decodeChecks (x : BitString) : Nat :=
  (List.range (ppid x.length)).foldl (fun chk k => checkUnit (ofBits x) x.length k chk) 0

/-- The syndrome of a received word. -/
def syndromeOf (x : BitString) : Nat := syndrome (decodeChecks x) (ppid x.length)

/-- The corrected codeword of a received word, as a vector. -/
def correctedBits (x : BitString) : Nat := correct (ofBits x) (locate (syndromeOf x) x.length)

/-- The syndrome event: the check bits most significant first, `r` digits (`42_sequencer.md` R170). -/
def syndromeEvent (chk : Nat) (r : Nat) : Event :=
  .syndrome (failedPositions chk r) (syndrome chk r) (toBits r chk).reverse

/-- The trace of a decode (`42_sequencer.md` R170, R171). -/
def decodeTrace (x : BitString) : List Event :=
  let r := ppid x.length
  let loc := locate (syndromeOf x) x.length
  [.input .dec x.length x, .parityPositions (parityPositions r)]
  ++ (List.range r).map (parityEvent (ofBits x) x.length)
  ++ [syndromeEvent (decodeChecks x) r, .correction (correctionOf (ofBits x) loc),
    .extract (extract (correctedBits x) x.length)]

/-- `DEC(x)`, for a non-empty `x` (R139). -/
def hammingDecode (c : Params) (x : BitString) : DecResult :=
  { parityChecks := parityRecords (ppid x.length) x.length (decodeChecks x)
    syndrome := syndromeOf x
    errorPosition := errorPosition c (locate (syndromeOf x) x.length)
    correctedCodeword := toBits x.length (correctedBits x)
    dataBits := extract (correctedBits x) x.length
    parityPositions := parityPositions (ppid x.length)
    trace := decodeTrace x }

end Sys2Proof.Machine
end

