-- ==== Sys2Proof/Machine/Sequencer.lean ====
section
/-! DEFINITION. The sequencer: the transitions T0 to T9 and the step relation of the block (`42_sequencer.md`
R150). `tick c p σ` is `step(σ, in)` of that rule, one rising edge of `clk`. -/

namespace Sys2Proof.Machine

/-- T2, accept (R153): every register is overwritten, `op`, `len` and `inb` from the port, the others as at reset
(`10_state.md` R40). -/
def accept (c : Params) (op : Op) (len : Nat) (bits : Nat) : Regs :=
  emit c [.input op len (toBits (heldLen c len) (latch c len bits))]
    { Regs.reset with ph := .inputReceived, op := op, len := len, inb := latch c len bits }

/-- The tests of T3, in the order of R154; `none` for a valid operand. -/
def refusal (c : Params) (op : Op) (len : Nat) : Option Condition :=
  match op with
  | .dec =>
    if len = 0 then some .emptyInput
    else if fitsCapacity c len then none else some .lengthOverflow
  | .enc => if fitsCapacity c (len + redundancy len) then none else some .lengthOverflow

/-- T3, refuse (R154). -/
def refuse (c : Params) (cond : Condition) (σ : Regs) : Regs :=
  emit c [.refused cond] { raise cond σ with done := true, ph := .finalized }

/-- T4, sizing (R155). -/
def sizing (c : Params) (σ : Regs) : Regs :=
  match σ.op with
  | .enc =>
    emit c [.sizing σ.len (candidates σ.len), .parityPositions (parityPositions (redundancy σ.len))]
      { σ with r := redundancy σ.len, n := σ.len + redundancy σ.len, ph := .sizingComputed }
  | .dec =>
    emit c [.parityPositions (parityPositions (ppid σ.len))]
      { σ with n := σ.len, r := ppid σ.len, ph := .sizingComputed }

/-- T5, layout (R156): `PLACE`, or the working copy of the received word, a whole-vector load (`20_memory.md`
R56). -/
def layout (c : Params) (σ : Regs) : Regs :=
  match σ.op with
  | .enc =>
    emit c [.layout σ.n (layoutCells (place σ.inb σ.n) σ.n)]
      { σ with buf := place σ.inb σ.n, ph := .layoutBuilt }
  | .dec => { σ with buf := σ.inb % 2 ^ σ.n, ph := .layoutBuilt }

/-- The parity action with index `j`, T6 and T7 (R157, R158, R161): `PARITY(j)` or `CHECK(j)`, the values read
before any write. -/
def parityAction (c : Params) (j : Nat) (σ : Regs) : Regs :=
  match σ.op with
  | .enc =>
    emit c [parityEvent σ.buf σ.n j]
      { σ with ph := .parityBits, k := j,
               buf := (parityUnit σ.n j (σ.buf, σ.chk)).1, chk := (parityUnit σ.n j (σ.buf, σ.chk)).2 }
  | .dec =>
    emit c [parityEvent σ.buf σ.n j]
      { σ with ph := .parityBits, k := j, chk := checkUnit σ.buf σ.n j σ.chk }

/-- T8, finalise an encode (R159). -/
def finalizeEnc (c : Params) (σ : Regs) : Regs :=
  emit c [.finalCodeword (toBits σ.n σ.buf)]
    { σ with resCw := σ.buf, resCwLen := σ.n, resData := σ.inb, resDataLen := σ.len,
             resR := σ.r, resChk := σ.chk, resSyndrome := 0, resErrpos := 0,
             fErr := false, fCorr := false, done := true, ph := .finalized }

/-- `if outcome = Uncorrectable(s): raise UncorrectableSyndrome(s)` (R160). -/
def raiseLocated (loc : Located) (σ : Regs) : Regs :=
  match loc with
  | .noError => σ
  | .correct _ => σ
  | .uncorrectable s => raise (.uncorrectableSyndrome s) σ

/-- T9, finalise a decode (R160): `SYNDROME`, `LOCATE`, `CORRECT`, `EXTRACT`, publish. `buf` is not written. -/
def finalizeDec (c : Params) (σ : Regs) : Regs :=
  let s := syndrome σ.chk σ.r
  let loc := locate s σ.n
  let cc := correct σ.buf loc
  emit c [syndromeEvent σ.chk σ.r, .correction (correctionOf σ.buf loc), .extract (extract cc σ.n)]
    { raiseLocated loc σ with
      resCw := cc, resCwLen := σ.n, resData := ofBits (extract cc σ.n), resDataLen := σ.n - σ.r,
      resR := σ.r, resChk := σ.chk, resSyndrome := s, resErrpos := errorPosition c loc,
      fErr := flagErr s, fCorr := flagCorr loc, done := true, ph := .finalized }

/-- T8 or T9 from `ParityBits(r-1)`. -/
def finalize (c : Params) (σ : Regs) : Regs :=
  match σ.op with
  | .enc => finalizeEnc c σ
  | .dec => finalizeDec c σ

/-- One step of the block (R150); `none` where no row of the table of transitions applies. -/
def tick (c : Params) (p : Pins) (σ : Regs) : Option Regs :=
  if p.rst then some Regs.reset
  else
    match σ.ph with
    | .idle => some (if p.cmdValid then accept c p.cmdOp p.cmdLen p.cmdBits else σ)
    | .inputReceived =>
      match refusal c σ.op σ.len with
      | some cond => some (refuse c cond σ)
      | none => some (sizing c σ)
    | .sizingComputed => some (layout c σ)
    | .layoutBuilt =>
      if 0 < σ.r then some (parityAction c 0 σ)
      else
        match σ.op with
        | .enc => some (finalizeEnc c σ)
        | .dec => none
    | .parityBits =>
      if σ.k + 1 < σ.r then some (parityAction c (σ.k + 1) σ)
      else if σ.k + 1 = σ.r then some (finalize c σ)
      else none
    | .finalized => some (if p.cmdValid then accept c p.cmdOp p.cmdLen p.cmdBits else σ)

/-- Several steps of the block, one for each listed value of the ports. -/
def ticks (c : Params) : List Pins → Regs → Option Regs
  | [], σ => some σ
  | p :: ps, σ =>
    match tick c p σ with
    | some σ' => ticks c ps σ'
    | none => none

/-! ### A whole operation (R166): the same transitions, one after the other -/

/-- The parity actions `0, 1, ..., r-1`, in that order. -/
def parityActions (c : Params) (σ : Regs) : Regs := (List.range σ.r).foldl (fun τ j => parityAction c j τ) σ

/-- The registers a command leaves at `Finalized`: accept, then refuse, or size, lay out, compute the parities and
finalise. Nothing of the registers before it enters (`10_state.md` R40). -/
def operation (c : Params) (op : Op) (len : Nat) (bits : Nat) : Regs :=
  match refusal c op len with
  | some cond => refuse c cond (accept c op len bits)
  | none => finalize c (parityActions c (layout c (sizing c (accept c op len bits))))

/-- How many steps it takes, acceptance included: `r + 4` for a valid command, 2 for a refused one (R168). -/
def operationSteps (c : Params) (op : Op) (len : Nat) : Nat :=
  match refusal c op len with
  | some _ => 2
  | none =>
    match op with
    | .enc => redundancy len + 4
    | .dec => ppid len + 4

end Sys2Proof.Machine
end

