-- ==== Sys2Proof/Machine/Commands.lean ====
section
/-! DEFINITION. The meanings of the two instructions. -/

namespace Sys2Proof.Machine

/-- One step of the machine's block under given ports. -/
def clock (p : Pins) (s : State) : Host.Outcome State Fault Refusal :=
  match tick s.params p s.regs with
  | some σ => .next { s with regs := σ }
  | none => .fault .noTransition

/-- Present a command at the port. When the block is not busy the command is accepted and runs to `Finalized`
(`42_sequencer.md` R153, R166). While it is busy the port is not looked at (R163): the operation in progress takes
its step, and the command is lost. Assumption log 2. -/
def perform (i : Instr) (s : State) : Host.Outcome State Fault Refusal :=
  if busy s.regs then clock (presentPins i) s
  else .next { s with regs := operation s.params (instrOp i) (instrLen i) (instrBits i) }

/-- `ENC` (`40_encoder.md` R102, R103). -/
def execEnc (len : Nat) (bits : Nat) (s : State) : Host.Outcome State Fault Refusal := perform (.enc len bits) s

/-- `DEC` (`41_decoder.md` R133, R134). -/
def execDec (len : Nat) (bits : Nat) (s : State) : Host.Outcome State Fault Refusal := perform (.dec len bits) s

end Sys2Proof.Machine
end

