-- ==== Sys2Proof/Machine/Dispatch.lean ====
section
/-! DEFINITION. One arm for each instruction of `spec/opcode_table.json`. -/

namespace Sys2Proof.Machine

def exec (i : Instr) (s : State) : Host.Outcome State Fault Refusal :=
  match i with
  | .enc len bits => Sys2Proof.Machine.execEnc len bits s
  | .dec len bits => Sys2Proof.Machine.execDec len bits s

end Sys2Proof.Machine
end

