-- ==== Sys2Proof/Machine/HostActs.lean ====
section
/-! DEFINITION. What one act of the host does to the machine. `Step.lean` only calls it. -/

namespace Sys2Proof.Machine

/-- One rising edge of `clk` with the ports the host drives. -/
def stepEdge (p : Pins) (rest : List HostAct) (s : State) : Host.Outcome State Fault Refusal :=
  if pinsOnPort s.params p then clock p { s with host := rest } else .refused .notOnPort

/-- One program line. While the block is busy the host waits, one quiet edge at a time (`70_reset_and_hazards.md`
R207: "present a command only when `busy = 0`"); then the command that the line spells is executed. A line that names a
previous result needs `done = 1` as well (R206, `readResult`). -/
def stepCommand (f : CmdForm) (rest : List HostAct) (s : State) : Host.Outcome State Fault Refusal :=
  if busy s.regs then clock quietPins s
  else
    match readCommand s.params s.regs f with
    | .ok i => exec i { s with host := rest }
    | .error e => .refused e

/-- A word of `spec/opcode_table.json` as a host command of the instance: the word itself where the instance's
words are the table's (`N_MAX = 15`), else the port fields of the instruction that the word spells there. -/
def tableCommand (c : Params) (nbits w : Nat) : CmdForm :=
  if c.nMax = Params.reference.nMax then .word (w % 2 ^ nbits)
  else
    match decodeTableWord nbits w with
    | some i => .fields (instrOp i) (instrLen i) (instrBits i)
    | none => .word (w % 2 ^ nbits)

end Sys2Proof.Machine
end

