-- ==== Sys2Proof/Machine/Step.lean ====
section
/-! DEFINITION. The step: the host's next act. -/

namespace Sys2Proof.Machine

/-- One step carries out the host's next act: one rising edge of `clk` (`42_sequencer.md` R150), or one program line
whole (R166). When no act is listed the host leaves the ports quiet and one step is one such edge. -/
def step (s : State) : Host.Outcome State Fault Refusal :=
  match s.host with
  | [] => clock quietPins s
  | .edge p :: rest => stepEdge p rest s
  | .command f :: rest => stepCommand f rest s

/-- The state with that instruction as the host's next command. Nothing is fetched in this hardware
(`10_state.md` R44): the place of a program is the list of the host's acts. A busy block would let the command
wait, so a busy phase becomes `Idle`. Assumption log 3. -/
def State.withFetchWord (s : State) (nbits w : Nat) : State :=
  { s with
    host := .command (tableCommand s.params nbits w) :: s.host
    regs := if busy s.regs then { s.regs with ph := .idle } else s.regs }

end Sys2Proof.Machine
end

