-- ==== Sys2Proof/Safety.lean ====
section
/-! DEFINITION. What a good state is: the registers fit their widths, everything beyond a string's length is 0, the
phase agrees with the registers, and the result port says what the rules of `10_state.md` and `60_exceptions.md` say
of it. -/

namespace Sys2Proof.Machine

/-- The parameters are those of an instance: `N_MAX ≥ 1` (`00_scope.md` R5). -/
def Params.Ok (c : Params) : Prop := ∀ nMax, c.nMax = some nMax → 1 ≤ nMax

/-- The result port as it reads while no result is valid (`10_state.md` R31 to R39, `70_reset_and_hazards.md`
R206): status `OK` and everything 0. -/
structure Regs.Cleared (σ : Regs) : Prop where
  status : σ.status = .ok
  fErr : σ.fErr = false
  fCorr : σ.fCorr = false
  resCw : σ.resCw = 0
  resCwLen : σ.resCwLen = 0
  resData : σ.resData = 0
  resDataLen : σ.resDataLen = 0
  resR : σ.resR = 0
  resChk : σ.resChk = 0
  resSyndrome : σ.resSyndrome = 0
  resErrpos : σ.resErrpos = 0

/-- The registers of a good state. -/
structure Regs.Wf (c : Params) (σ : Regs) : Prop where
  /-- `len` fits `LW` bits (R22) -/
  len_onPort : lenOnPort c σ.len = true
  /-- `inb` is 0 at and beyond its length (R26) -/
  inb_lt : σ.inb < 2 ^ heldLen c σ.len
  /-- a codeword length fits the instance (R22) -/
  n_fits : fitsCapacity c σ.n = true
  /-- the parity positions are the powers of two not exceeding `n` (`20_memory.md` R51) -/
  r_eq : σ.r = bitlen σ.n
  /-- `buf` is 0 at and beyond index `n` (R29) -/
  buf_lt : σ.buf < 2 ^ σ.n
  /-- bits `k ≥ r` of `chk` stay 0 (R30) -/
  chk_lt : σ.chk < 2 ^ σ.r
  /-- `k` is 0 or below `r` (R23) -/
  k_range : σ.k = 0 ∨ σ.k < σ.r
  /-- in `ParityBits(k)`, `k < r` and only positions up to `2^k` have been computed (R23) -/
  parity_progress : σ.ph = .parityBits → σ.k < σ.r ∧ σ.chk < 2 ^ (σ.k + 1)
  /-- `Idle` is the reset state (`70_reset_and_hazards.md` R200) -/
  idle_reset : σ.ph = .idle → σ = Regs.reset
  /-- in `InputReceived` nothing has been computed (`42_sequencer.md` R153) -/
  accepted : σ.ph = .inputReceived → σ.k = 0 ∧ σ.r = 0 ∧ σ.n = 0 ∧ σ.buf = 0 ∧ σ.chk = 0
  /-- past `InputReceived` the operand is valid and `r` and `n` are its sizes (`42_sequencer.md` R155) -/
  sized : σ.ph = .sizingComputed ∨ σ.ph = .layoutBuilt ∨ σ.ph = .parityBits →
    refusal c σ.op σ.len = none ∧
      σ.n = (match σ.op with | .enc => σ.len + redundancy σ.len | .dec => σ.len)
  /-- before the parity phase `buf` and `chk` hold what the phases so far have written (R29, R30) -/
  unwritten : (σ.ph = .sizingComputed → σ.buf = 0) ∧
    (σ.ph = .sizingComputed ∨ σ.ph = .layoutBuilt → σ.chk = 0 ∧ σ.k = 0)
  /-- `done = 1` exactly when `ph = Finalized` (R32) -/
  done_iff : σ.done = true ↔ σ.ph = .finalized
  /-- no result before `Finalized` (`70_reset_and_hazards.md` R206) -/
  cleared : σ.ph ≠ .finalized → Regs.Cleared σ
  /-- a refused command leaves every result 0 (`60_exceptions.md` R181, R184) -/
  refused : σ.status = .emptyInput ∨ σ.status = .lengthOverflow →
    Regs.Cleared { σ with status := .ok }
  /-- a command that was not refused publishes its own sizes and parities, and as many data bits as there are data
  positions (`42_sequencer.md` R159, R160) -/
  published : σ.ph = .finalized → σ.status = .ok ∨ σ.status = .uncorrectableSyndrome →
    σ.resCwLen = σ.n ∧ σ.resR = σ.r ∧ σ.resChk = σ.chk ∧ σ.resDataLen + σ.resR = σ.resCwLen
  /-- `res_cw` is 0 at and beyond its length (R34) -/
  resCw_lt : σ.resCw < 2 ^ σ.resCwLen
  /-- `res_data` is 0 at and beyond its length (R35) -/
  resData_lt : σ.resData < 2 ^ σ.resDataLen
  /-- `res_chk` has one bit for each parity position (R37) -/
  resChk_lt : σ.resChk < 2 ^ σ.resR
  /-- the syndrome has one bit for each parity position (`41_decoder.md` R125) -/
  resSyndrome_lt : σ.resSyndrome < 2 ^ σ.resR
  /-- `res_errpos` fits `SW` bits (R20); for an `ERRPOS_UNCORR` left free this is the reduction of assumption log 4 -/
  resErrpos_lt : ∀ nMax, c.nMax = some nMax → σ.resErrpos < 2 ^ sw nMax
  /-- `f_err` is 1 exactly when the syndrome is not 0 (R33) -/
  fErr_iff : σ.fErr = true ↔ σ.resSyndrome ≠ 0
  /-- `f_corr` is 1 exactly when `1 ≤ syndrome ≤ n` (R33) -/
  fCorr_iff : σ.fCorr = true ↔ 1 ≤ σ.resSyndrome ∧ σ.resSyndrome ≤ σ.resCwLen
  /-- `UncorrectableSyndrome` is reported exactly when the syndrome exceeds `n` (`60_exceptions.md` R182) -/
  uncorrectable_iff : σ.status = .uncorrectableSyndrome ↔ σ.resCwLen < σ.resSyndrome
  /-- an instance without the trace port keeps no trace: the model's choice, assumption log 7 -/
  no_trace : c.traceEn = false → σ.trace = []

/-- A good state. -/
structure State.Inv (s : State) : Prop where
  params : Params.Ok s.params
  regs : Regs.Wf s.params s.regs

end Sys2Proof.Machine
end

