-- ==== Sys2Proof/Certificates/Slice0/Obligations.lean ====
section
/-! DEFINITION. The statements for the provers. The rules are those of `spec/`; where a statement rests on a choice of
this model, its docstring names the log entry. -/

open Sys2Proof Sys2Proof.Machine

/-! ### The command word -/

/-- R72, R73, R76: in a finite instance every number below `2^(1 + LW + N_MAX)` is a command word. It spells `ENC` or
`DEC` by its bit 0, with `len = W[LW:1]` and `bits = W[LW+N_MAX : LW+1]`; a wider number is no word, and an instance
with `N_MAX = ∞` has no word format. -/
def Obligations.WordSpellsItsFields : Prop :=
  (∀ (c : Params) (nMax w : Nat), c.nMax = some nMax → w < 2 ^ (1 + lw nMax + nMax) →
    decode c w = .ok (if w % 2 = 0 then .enc (w / 2 % 2 ^ lw nMax) (w / 2 ^ (lw nMax + 1))
                      else .dec (w / 2 % 2 ^ lw nMax) (w / 2 ^ (lw nMax + 1)))) ∧
  (∀ (c : Params) (nMax w : Nat), c.nMax = some nMax → 2 ^ (1 + lw nMax + nMax) ≤ w →
    decode c w = .error .tooWide) ∧
  (∀ (c : Params) (w : Nat), c.nMax = none → decode c w = .error .noWordFormat)

/-- R72: the word of a well-formed command, at every operand value the port carries, decodes to that command. -/
def Obligations.DecodeOfEncodeIsTheCommand : Prop :=
  ∀ (c : Params) (nMax : Nat) (i : Instr), c.nMax = some nMax → WellFormed c i →
    ∃ w, encode c i = some w ∧ w < 2 ^ (1 + lw nMax + nMax) ∧ decode c w = .ok i

/-- R76: every word spells one well-formed command, and the encoder gives that word back. -/
def Obligations.EncodeOfDecodeIsTheWord : Prop :=
  ∀ (c : Params) (nMax w : Nat), c.nMax = some nMax → w < 2 ^ (1 + lw nMax + nMax) →
    ∃ i, decode c w = .ok i ∧ WellFormed c i ∧ encode c i = some w

/-- The command words written out in R72 and `95_test_vectors.md` (E10, D1, D20, D16, and D29 of the instance
`N_MAX = 12`). -/
def Obligations.WordsOfTheSpecDecode : Prop :=
  decode Params.reference 0b00000000000110101000 = .ok (.enc 4 0b1101) ∧
  decode Params.reference 0b00000000110011001111 = .ok (.dec 7 0b1100110) ∧
  decode Params.reference 0b00000000000100101001 = .ok (.dec 4 0b1001) ∧
  decode Params.reference 0b00000000000000000001 = .ok (.dec 0 0) ∧
  decode { Params.reference with nMax := some 12 } 0b00000000000011011 = .ok (.dec 13 0)

/-- R75: the bits at indices `j ≥ len` are ignored. Two commands that agree on `op`, on `len` and on the bits below
`len` do the same to every state, and the accepted `inb` is 0 there. -/
def Obligations.BitsBeyondLenAreIgnored : Prop :=
  (∀ (op : Op) (len b b' : Nat) (s : State), (∀ j, j < len → b.testBit j = b'.testBit j) →
    exec (instrOfFields op len b) s = exec (instrOfFields op len b') s) ∧
  (∀ (op : Op) (len b : Nat) (s t : State), busy s.regs = false → exec (instrOfFields op len b) s = .next t →
    ∀ j, len ≤ j → t.regs.inb.testBit j = false)

/-! ### Steps -/

/-- One step on a listed command, when the block is not busy, is `exec` of the command that the host's form of it
spells, with the act taken off the list; a command word is decoded. While the block is busy the host waits: the step is
one quiet edge and the act stays. The list of acts is the model's (log entry 2); the waiting is R207. -/
def Obligations.StepRunsTheDecodedCommand : Prop :=
  (∀ (s : State) (f : CmdForm) (rest : List HostAct) (i : Instr), s.host = .command f :: rest →
    busy s.regs = false → readCommand s.params s.regs f = .ok i → step s = exec i { s with host := rest }) ∧
  (∀ (s : State) (w : Nat) (rest : List HostAct) (i : Instr), s.host = .command (.word w) :: rest →
    busy s.regs = false → decode s.params w = .ok i → step s = exec i { s with host := rest }) ∧
  (∀ (s : State) (f : CmdForm) (rest : List HostAct), s.host = .command f :: rest → busy s.regs = true →
    step s = clock quietPins s)

/-- `withFetchWord` places a word of the opcode table where the very next step runs it, from every state that is not
busy, in every instance whose port carries the command (log entry 3). -/
def Obligations.FetchWordRunsNext : Prop :=
  ∀ (s : State) (nbits w : Nat) (i : Instr), busy s.regs = false → decodeTableWord nbits w = some i →
    WellFormed s.params i → step (s.withFetchWord nbits w) = exec i s

/-- R150: a step on listed ports is the sequencer's step under these ports; with nothing listed the ports are quiet. -/
def Obligations.StepOfAnEdgeIsTheSequencers : Prop :=
  (∀ (s : State) (p : Pins) (rest : List HostAct) (σ : Regs), s.host = .edge p :: rest →
    pinsOnPort s.params p = true → tick s.params p s.regs = some σ →
    step s = .next { s with host := rest, regs := σ }) ∧
  (∀ (s : State) (σ : Regs), s.host = [] → tick s.params quietPins s.regs = some σ →
    step s = .next { s with regs := σ })

/-- The frame of every step and of every instruction: the parameters of the instance never change, and an instruction
takes nothing from the host's list. -/
def Obligations.InstanceAndHostAreUntouched : Prop :=
  (∀ s t : State, step s = .next t → t.params = s.params ∧ (t.host = s.host ∨ t.host = s.host.tail)) ∧
  (∀ (i : Instr) (s t : State), exec i s = .next t → t.params = s.params ∧ t.host = s.host)

/-! ### The transitions T0 to T9 -/

/-- R151, R46: `rst` overrides everything, and the reset state is this one. -/
def Obligations.ResetGivesTheResetState : Prop :=
  ∀ (c : Params) (p : Pins) (σ : Regs), p.rst = true →
    ∃ τ, tick c p σ = some τ ∧
      τ.ph = .idle ∧ τ.k = 0 ∧ τ.op = .enc ∧ τ.len = 0 ∧ τ.inb = 0 ∧ τ.r = 0 ∧ τ.n = 0 ∧ τ.buf = 0 ∧ τ.chk = 0 ∧
      τ.status = .ok ∧ τ.done = false ∧ τ.fErr = false ∧ τ.fCorr = false ∧ τ.resCw = 0 ∧ τ.resCwLen = 0 ∧
      τ.resData = 0 ∧ τ.resDataLen = 0 ∧ τ.resR = 0 ∧ τ.resChk = 0 ∧ τ.resSyndrome = 0 ∧ τ.resErrpos = 0 ∧
      τ.trace = [] ∧ busy τ = false ∧ τ = State.reset.regs

/-- R152, hold: with no reset and no command, a block in `Idle` or `Finalized` keeps every register. -/
def Obligations.HoldChangesNothing : Prop :=
  ∀ (c : Params) (p : Pins) (σ : Regs), p.rst = false → σ.ph = .idle ∨ σ.ph = .finalized → p.cmdValid = false →
    tick c p σ = some σ

/-- R153: acceptance overwrites every register. The trace clause is for the instances that have the port (R41). -/
def Obligations.AcceptanceLatchesTheCommand : Prop :=
  ∀ (c : Params) (p : Pins) (σ : Regs), p.rst = false → σ.ph = .idle ∨ σ.ph = .finalized → p.cmdValid = true →
    ∃ τ, tick c p σ = some τ ∧
      (∀ j, τ.inb.testBit j =
        (decide (j < p.cmdLen ∧ ∀ nMax, c.nMax = some nMax → j < nMax) && p.cmdBits.testBit j)) ∧
      τ = { ph := .inputReceived, k := 0, op := p.cmdOp, len := p.cmdLen, inb := τ.inb, r := 0, n := 0, buf := 0,
            chk := 0, status := .ok, done := false, fErr := false, fCorr := false, resCw := 0, resCwLen := 0,
            resData := 0, resDataLen := 0, resR := 0, resChk := 0, resSyndrome := 0, resErrpos := 0,
            trace := τ.trace } ∧
      (c.traceEn = true → ∃ d : BitString, τ.trace = [.input p.cmdOp p.cmdLen d] ∧
        (d.length = match c.nMax with | none => p.cmdLen | some nMax => min p.cmdLen nMax) ∧
        ∀ j, d.getD j false = τ.inb.testBit j)

/-- R154: an invalid operand is refused, by the first of the three tests that fires; no unit runs. -/
def Obligations.InvalidOperandsAreRefused : Prop :=
  ∀ (c : Params) (p : Pins) (σ : Regs), p.rst = false → σ.ph = .inputReceived →
    (σ.op = .dec → σ.len = 0 →
      ∃ τ, tick c p σ = some τ ∧
        τ = { σ with status := .emptyInput, done := true, ph := .finalized, trace := τ.trace } ∧
        (c.traceEn = true → τ.trace = σ.trace ++ [.refused .emptyInput])) ∧
    (∀ nMax, c.nMax = some nMax →
      (σ.op = .dec ∧ σ.len ≠ 0 ∧ nMax < σ.len) ∨ (σ.op = .enc ∧ nMax < σ.len + redundancy σ.len) →
      ∃ τ, tick c p σ = some τ ∧
        τ = { σ with status := .lengthOverflow, done := true, ph := .finalized, trace := τ.trace } ∧
        (c.traceEn = true → τ.trace = σ.trace ++ [.refused .lengthOverflow]))

/-- R155: sizing, for a valid operand. -/
def Obligations.SizingSetsLengthAndParityCount : Prop :=
  ∀ (c : Params) (p : Pins) (σ : Regs), p.rst = false → σ.ph = .inputReceived →
    (σ.op = .enc → fitsCapacity c (σ.len + redundancy σ.len) = true →
      ∃ τ, tick c p σ = some τ ∧
        τ = { σ with r := redundancy σ.len, n := σ.len + redundancy σ.len, ph := .sizingComputed
                     trace := τ.trace } ∧
        (c.traceEn = true → τ.trace = σ.trace ++ [.sizing σ.len (candidates σ.len),
          .parityPositions ((List.range (redundancy σ.len)).map (2 ^ ·))])) ∧
    (σ.op = .dec → σ.len ≠ 0 → fitsCapacity c σ.len = true →
      ∃ τ, tick c p σ = some τ ∧
        τ = { σ with r := bitlen σ.len, n := σ.len, ph := .sizingComputed, trace := τ.trace } ∧
        (c.traceEn = true →
          τ.trace = σ.trace ++ [.parityPositions ((List.range (bitlen σ.len)).map (2 ^ ·))]))

/-- R156: layout. `ENC` places the data and marks the parity slots in the event; `DEC` copies the received word. Only
`buf`, `ph` and `trace` change. -/
def Obligations.LayoutPlacesOrCopies : Prop :=
  ∀ (c : Params) (p : Pins) (σ : Regs), p.rst = false → σ.ph = .sizingComputed →
    ∃ τ, tick c p σ = some τ ∧ τ = { σ with buf := τ.buf, ph := .layoutBuilt, trace := τ.trace } ∧
      τ.buf < 2 ^ σ.n ∧
      (σ.op = .enc → τ.buf = place σ.inb σ.n ∧
        (c.traceEn = true → τ.trace = σ.trace ++ [.layout σ.n ((positions σ.n).map fun i =>
          if isParityPos i then .unresolved else .data (memRead τ.buf i))])) ∧
      (σ.op = .dec → τ.trace = σ.trace ∧ ∀ i, 1 ≤ i → i ≤ σ.n → memRead τ.buf i = σ.inb.testBit (i - 1))

/-- R157, R158, R161, R97, R122: a parity step, into `ParityBits(0)` or into `ParityBits(k + 1)`, computes the XOR over
the cover of `2^j` in the buffer as it stands, writes it to `chk[j]` and, at `ENC`, to position `2^j`. Every other bit of
the two vectors and every other register but `ph`, `k` and `trace` is unchanged. -/
def Obligations.ParityStepWritesOneBit : Prop :=
  ∀ (c : Params) (p : Pins) (σ : Regs) (j : Nat), p.rst = false →
    (σ.ph = .layoutBuilt ∧ j = 0 ∨ σ.ph = .parityBits ∧ j = σ.k + 1) → j < σ.r →
    ∃ τ, tick c p σ = some τ ∧
      τ = { σ with ph := .parityBits, k := j, buf := τ.buf, chk := τ.chk, trace := τ.trace } ∧
      (∀ b, τ.chk.testBit b =
        if b = j then xorAll ((cover (2 ^ j) σ.n).map (memRead σ.buf)) else σ.chk.testBit b) ∧
      (σ.op = .enc → ∀ i, 1 ≤ i → memRead τ.buf i =
        if i = 2 ^ j then xorAll ((cover (2 ^ j) σ.n).map (memRead σ.buf)) else memRead σ.buf i) ∧
      (σ.op = .dec → τ.buf = σ.buf) ∧
      (c.traceEn = true → τ.trace = σ.trace ++ [.parity (2 ^ j) (cover (2 ^ j) σ.n)
        ((cover (2 ^ j) σ.n).map (memRead σ.buf)) (τ.chk.testBit j)])

/-- R159: finalising an encode publishes the buffer, the data and the parities. -/
def Obligations.EncodeIsPublished : Prop :=
  ∀ (c : Params) (p : Pins) (σ : Regs), p.rst = false → σ.op = .enc →
    (σ.ph = .layoutBuilt ∧ σ.r = 0 ∨ σ.ph = .parityBits ∧ σ.k + 1 = σ.r) →
    ∃ τ, tick c p σ = some τ ∧
      τ = { σ with
        resCw := σ.buf, resCwLen := σ.n, resData := σ.inb, resDataLen := σ.len, resR := σ.r, resChk := σ.chk,
        resSyndrome := 0, resErrpos := 0, fErr := false, fCorr := false, done := true, ph := .finalized
        trace := τ.trace } ∧
      (c.traceEn = true → τ.trace = σ.trace ++ [.finalCodeword ((positions σ.n).map (memRead σ.buf))])

/-- R160: finalising a decode. With `s` the sum of the failed parity positions: `res_cw` is the buffer with position `s`
flipped when `1 ≤ s ≤ n` and unchanged otherwise, `res_data` its bits at the positions that are no powers of two, and
`status` is 2 exactly when `s > n`. `buf` and every register not named is unchanged. -/
def Obligations.DecodeIsPublished : Prop :=
  ∀ (c : Params) (p : Pins) (σ : Regs), p.rst = false → σ.op = .dec → σ.ph = .parityBits → σ.k + 1 = σ.r →
    ∃ τ, tick c p σ = some τ ∧
      τ = { σ with
        status := τ.status, resCw := τ.resCw, resCwLen := σ.n, resData := τ.resData, resDataLen := σ.n - σ.r,
        resR := σ.r, resChk := σ.chk, resSyndrome := τ.resSyndrome, resErrpos := τ.resErrpos, fErr := τ.fErr,
        fCorr := τ.fCorr, done := true, ph := .finalized, trace := τ.trace } ∧
      τ.resSyndrome = (((List.range σ.r).filter σ.chk.testBit).map (2 ^ ·)).sum ∧
      (∀ i, 1 ≤ i → memRead τ.resCw i =
        (memRead σ.buf i ^^ decide (i = τ.resSyndrome ∧ τ.resSyndrome ≤ σ.n))) ∧
      τ.resData = ofBits (((positions σ.n).filter fun i => !isParityPos i).map (memRead τ.resCw)) ∧
      τ.status = (if σ.n < τ.resSyndrome then .uncorrectableSyndrome else σ.status) ∧
      τ.resErrpos = (if σ.n < τ.resSyndrome then errposUncorr c τ.resSyndrome else τ.resSyndrome) ∧
      τ.fErr = decide (τ.resSyndrome ≠ 0) ∧
      τ.fCorr = decide (1 ≤ τ.resSyndrome ∧ τ.resSyndrome ≤ σ.n) ∧
      (c.traceEn = true → τ.trace = σ.trace ++
        [.syndrome (((List.range σ.r).filter σ.chk.testBit).map (2 ^ ·)) τ.resSyndrome (toBits σ.r σ.chk).reverse,
          .correction (if τ.resSyndrome = 0 then .noError
            else if τ.resSyndrome ≤ σ.n then .corrected τ.resSyndrome (memRead σ.buf τ.resSyndrome)
              (!memRead σ.buf τ.resSyndrome)
            else .uncorrectable τ.resSyndrome),
          .extract (((positions σ.n).filter fun i => !isParityPos i).map (memRead τ.resCw))])

/-- R163: while `busy = 1` the command port is not looked at. -/
def Obligations.BusyIgnoresTheCommandPort : Prop :=
  ∀ (c : Params) (p q : Pins) (σ : Regs), busy σ = true → p.rst = q.rst → tick c p σ = tick c q σ

/-- R163: a command presented while the block is busy is lost: executing it there is one step of the operation in
progress, the same as with a quiet port. That `exec` is one edge in a busy state is the model's choice (log
entry 2). -/
def Obligations.CommandWhileBusyIsLost : Prop :=
  ∀ (i : Instr) (s t : State), busy s.regs = true → exec i s = .next t →
    clock quietPins s = .next t ∧ tick s.params quietPins s.regs = some t.regs ∧ t.params = s.params ∧ t.host = s.host

/-- R162: only T0, T1 and T2 leave or change `Finalized`, so the results hold until the next command or reset. -/
def Obligations.FinalizedHoldsItsResults : Prop :=
  ∀ (c : Params) (p : Pins) (σ : Regs), σ.ph = .finalized →
    (p.rst = true ∧ tick c p σ = some Regs.reset) ∨
    (p.rst = false ∧ p.cmdValid = false ∧ tick c p σ = some σ) ∨
    (p.rst = false ∧ p.cmdValid = true ∧ ∃ τ, tick c p σ = some τ ∧ τ.ph = .inputReceived)

/-- R164: from a good state without reset no transition goes backwards, every phase other than `Idle` and `Finalized` is
left at the next step except `ParityBits(k)` for `ParityBits(k + 1)`, and no phase is skipped but for a refusal and for
`r = 0`. -/
def Obligations.PhasesGoForwardOnly : Prop :=
  ∀ (c : Params) (p : Pins) (σ τ : Regs), Regs.Wf c σ → p.rst = false → busy σ = true → tick c p σ = some τ →
    (σ.ph = .inputReceived ∧ (τ.ph = .sizingComputed ∨ τ.ph = .finalized ∧ refusal c σ.op σ.len ≠ none)) ∨
    (σ.ph = .sizingComputed ∧ τ.ph = .layoutBuilt) ∨
    (σ.ph = .layoutBuilt ∧ (τ.ph = .parityBits ∧ τ.k = 0 ∨ τ.ph = .finalized ∧ σ.r = 0)) ∨
    (σ.ph = .parityBits ∧ (τ.ph = .parityBits ∧ τ.k = σ.k + 1 ∨ τ.ph = .finalized ∧ σ.k + 1 = σ.r))

/-! ### The units -/

/-- R90, R91: `R(m)` is the least `r` with `2^r ≥ m + r + 1`, every `r` from it on satisfies it too, and
`R(m) ≤ m + 1`. -/
def Obligations.RedundancyIsTheLeastThatFits : Prop :=
  ∀ m : Nat, redundancy m ≤ m + 1 ∧ ∀ r : Nat, m + r + 1 ≤ 2 ^ r ↔ redundancy m ≤ r

/-- R91: the candidates recorded are `0, 1, ..., R(m)` in that order, each with `2^r`, `m + r + 1` and the outcome of
the comparison, and the last one alone is accepted. -/
def Obligations.CandidatesAreTheTestedOnes : Prop :=
  ∀ m : Nat, (candidates m).length = redundancy m + 1 ∧
    ∀ r, r ≤ redundancy m →
      (candidates m)[r]? = some { r := r, pow := 2 ^ r, need := m + r + 1, verdict := decide (r = redundancy m) }

/-- R92: `R(m) = r` exactly when `2^(r-1) - r + 1 ≤ m ≤ 2^r - r - 1`, for `r ≥ 2`; `R(0) = 0`; `R(m) = 1` for no `m`.
The bounds are written without subtraction. -/
def Obligations.RedundancyTableRow : Prop :=
  redundancy 0 = 0 ∧ (∀ m, redundancy m ≠ 1) ∧
  ∀ m r, 2 ≤ r → (redundancy m = r ↔ 2 ^ (r - 1) + 1 ≤ m + r ∧ m + r + 1 ≤ 2 ^ r)

/-- R93: for `m ≥ 1`, `2^(r-1) < n < 2^r`, so the encoder's parity positions are exactly the powers of two not exceeding
`n`; and the lengths produced are 0 and every `n ≥ 3` that is no power of two, each by exactly one `m`,
`m = n - bitlen(n)`. -/
def Obligations.EncoderLengths : Prop :=
  (∀ m, 1 ≤ m → 2 ^ (redundancy m - 1) < m + redundancy m ∧ m + redundancy m < 2 ^ redundancy m) ∧
  (∀ m k, k < redundancy m ↔ 2 ^ k ≤ m + redundancy m) ∧
  (∀ m, m + redundancy m = 0 ∨ 3 ≤ m + redundancy m ∧ isParityPos (m + redundancy m) = false) ∧
  (∀ n, 3 ≤ n → isParityPos n = false → ∀ m, m + redundancy m = n ↔ m = n - bitlen n)

/-- R120, R121: `PPID` counts the powers of two not exceeding `n`, which is `bitlen(n)`, and on an encoder's length it
gives the encoder's redundancy. -/
def Obligations.PpidCountsThePowersOfTwo : Prop :=
  (∀ n k, k < ppid n ↔ 2 ^ k ≤ n) ∧ (∀ n, ppid n = bitlen n) ∧ (∀ m, ppid (m + redundancy m) = redundancy m)

/-- R12: a parity position is covered by no parity position but itself, and a data position by at least two;
what covers a position does not exceed it. -/
def Obligations.CoversMeetParityPositionsOnce : Prop :=
  (∀ j k n, 2 ^ k ≤ n → (2 ^ j ∈ cover (2 ^ k) n ↔ j = k ∧ 2 ^ j ≤ n)) ∧
  (∀ i n, 1 ≤ i → i ≤ n → isParityPos i = false →
    ∃ j k, j < k ∧ 2 ^ k ≤ i ∧ i ∈ cover (2 ^ j) n ∧ i ∈ cover (2 ^ k) n) ∧
  (∀ i k n, i ∈ cover (2 ^ k) n → 2 ^ k ≤ i ∧ i ≤ n)

/-- R54: `DataPos` lists the positions that are no powers of two, in order, and `DataPos(j) = j + t` with `t` the least
integer such that `2^t > j + t`, which is `bitlen(DataPos(j))`. -/
def Obligations.DataPositionsInOrder : Prop :=
  (∀ j, 1 ≤ j → isParityPos (dataPos j) = false ∧ dataPos j < dataPos (j + 1)) ∧
  (∀ i, 1 ≤ i → isParityPos i = false → ∃ j, 1 ≤ j ∧ dataPos j = i) ∧
  (∀ j, 1 ≤ j → ∃ t, dataPos j = j + t ∧ t = bitlen (dataPos j) ∧ ∀ u, j + u < 2 ^ u ↔ t ≤ u)

/-- R94, R95, R96: after `PLACE` data bit `j` stands at `DataPos(j)`, every parity position reads 0, and the buffer is 0
beyond `n`. -/
def Obligations.PlacePutsDataInOrder : Prop :=
  ∀ inb m : Nat,
    (∀ j, 1 ≤ j → j ≤ m → dataPos j ≤ m + redundancy m ∧
      memRead (place inb (m + redundancy m)) (dataPos j) = inb.testBit (j - 1)) ∧
    (∀ k, memRead (place inb (m + redundancy m)) (2 ^ k) = false) ∧
    place inb (m + redundancy m) < 2 ^ (m + redundancy m)

/-- R99: the parity bit at `2^k` is the XOR of the data bits `d_j` for which bit `k` of `DataPos(j)` is 1. -/
def Obligations.ParityBitIsXorOfDataBits : Prop :=
  ∀ (d : BitString) (k : Nat), k < redundancy d.length →
    memRead (encodeBuffers d).1 (2 ^ k) = (encodeBuffers d).2.testBit k ∧
    (encodeBuffers d).2.testBit k =
      xorAll ((List.range d.length).map fun j => (dataPos (j + 1)).testBit k && d.getD j false)

/-- R61, R99: every order of computing the parity bits, and every order of the checks, gives the same `buf` and
`chk`. -/
def Obligations.ParityOrderDoesNotMatter : Prop :=
  ∀ (n : Nat) (ks ks' : List Nat), ks.Perm ks' →
    (∀ st : Nat × Nat, ks.foldl (fun st k => parityUnit n k st) st = ks'.foldl (fun st k => parityUnit n k st) st) ∧
    (∀ buf chk : Nat, ks.foldl (fun chk k => checkUnit buf n k chk) chk =
      ks'.foldl (fun chk k => checkUnit buf n k chk) chk)

/-- R125: the syndrome is the number whose bit `k` is check `k`; it is below `2^r`, which is at most `2n`; it is the XOR
of the positions of the word's 1 bits; and it is linear. -/
def Obligations.SyndromeIsXorOfPositions : Prop :=
  (∀ x : BitString, syndromeOf x = decodeChecks x ∧ syndromeOf x < 2 ^ ppid x.length ∧
    (x ≠ [] → 2 ^ ppid x.length ≤ 2 * x.length) ∧
    syndromeOf x = ((positions x.length).filter fun i => x.getD (i - 1) false).foldl (· ^^^ ·) 0) ∧
  (∀ x y : BitString, x.length = y.length →
    syndromeOf (List.zipWith xor x y) = syndromeOf x ^^^ syndromeOf y)

/-- R128, R129, R130: `DEC` flips exactly the position `s` when `1 ≤ s ≤ n`, and the corrected word then passes every
check; otherwise the word is unchanged, and keeps its syndrome. -/
def Obligations.CorrectionFlipsTheSyndromePosition : Prop :=
  ∀ (c : Params) (x : BitString),
    (∀ i, 1 ≤ i → i ≤ x.length → (hammingDecode c x).correctedCodeword.getD (i - 1) false =
      (x.getD (i - 1) false ^^ decide (i = syndromeOf x))) ∧
    (hammingDecode c x).correctedCodeword.length = x.length ∧
    (syndromeOf x ≤ x.length → syndromeOf (hammingDecode c x).correctedCodeword = 0) ∧
    (x.length < syndromeOf x → (hammingDecode c x).correctedCodeword = x)

/-- R132: `n - bitlen(n)` bits are extracted; the `j`-th is the corrected word's bit at `DataPos(j)`. -/
def Obligations.ExtractReadsTheDataPositions : Prop :=
  ∀ cc n : Nat, (extract cc n).length = n - bitlen n ∧
    ∀ j, 1 ≤ j → j ≤ n - bitlen n → (extract cc n).getD (j - 1) false = memRead cc (dataPos j) ∧ dataPos j ≤ n

/-- R184: `ENC` overflows exactly when `len > M_MAX`, the longest data string the instance accepts (R5). -/
def Obligations.OverflowIsBeyondMMax : Prop :=
  ∀ nMax : Nat, 1 ≤ nMax → mMax nMax + redundancy (mMax nMax) ≤ nMax ∧
    ∀ len, nMax < len + redundancy len ↔ mMax nMax < len

/-! ### The two instructions -/

/-- R103 (with R102): `ENC` of a data string that fits the instance completes, from every state in which a command is
accepted, with exactly these registers. -/
def Obligations.EncCompletesWithItsResult : Prop :=
  ∀ (len bits : Nat) (s : State), busy s.regs = false → fitsCapacity s.params (len + redundancy len) = true →
    ∃ t, exec (.enc len bits) s = .next t ∧ t.params = s.params ∧ t.host = s.host ∧
      (let e := hammingEncode (toBits len bits)
       codewordString t.regs = e.codeword ∧ resParityPositions t.regs = e.parityPositions ∧
       resParityRecords t.regs = e.parityCalculations ∧ dataString t.regs = e.dataBits ∧
       t.regs = { ph := .finalized, k := redundancy len - 1, op := .enc, len := len, inb := bits % 2 ^ len,
                  r := redundancy len, n := len + redundancy len, buf := ofBits e.codeword, chk := t.regs.resChk,
                  status := .ok, done := true, fErr := false, fCorr := false, resCw := ofBits e.codeword,
                  resCwLen := len + redundancy len, resData := bits % 2 ^ len, resDataLen := len,
                  resR := redundancy len, resChk := t.regs.resChk, resSyndrome := 0, resErrpos := 0,
                  trace := t.regs.trace } ∧
       (s.params.traceEn = true → t.regs.trace = e.trace) ∧
       t.regs.resChk < 2 ^ redundancy len)

/-- R134 (with R133): `DEC` of a received word of length `n ≥ 1` that fits the instance completes, from every state in
which a command is accepted, with exactly these registers. The received word stays in `inb` and `buf`. -/
def Obligations.DecCompletesWithItsResult : Prop :=
  ∀ (len bits : Nat) (s : State), busy s.regs = false → len ≠ 0 → fitsCapacity s.params len = true →
    ∃ t, exec (.dec len bits) s = .next t ∧ t.params = s.params ∧ t.host = s.host ∧
      (let e := hammingDecode s.params (toBits len bits)
       codewordString t.regs = e.correctedCodeword ∧ resParityPositions t.regs = e.parityPositions ∧
       resParityRecords t.regs = e.parityChecks ∧ dataString t.regs = e.dataBits ∧
       t.regs = { ph := .finalized, k := bitlen len - 1, op := .dec, len := len, inb := bits % 2 ^ len,
                  r := bitlen len, n := len, buf := bits % 2 ^ len, chk := t.regs.resChk,
                  status := if len < e.syndrome then .uncorrectableSyndrome else .ok, done := true,
                  fErr := decide (e.syndrome ≠ 0), fCorr := decide (1 ≤ e.syndrome ∧ e.syndrome ≤ len),
                  resCw := ofBits e.correctedCodeword, resCwLen := len, resData := ofBits e.dataBits,
                  resDataLen := len - bitlen len, resR := bitlen len, resChk := t.regs.resChk,
                  resSyndrome := e.syndrome, resErrpos := e.errorPosition,
                  trace := t.regs.trace } ∧
       (s.params.traceEn = true → t.regs.trace = e.trace) ∧
       t.regs.resChk < 2 ^ bitlen len ∧
       e.errorPosition = if len < e.syndrome then errposUncorr s.params e.syndrome else e.syndrome)

/-- R181, R184: a refused command reports its condition with every result 0; no unit runs. -/
def Obligations.RefusedCommandReportsItsCondition : Prop :=
  (∀ (bits : Nat) (s : State), busy s.regs = false →
    ∃ t, exec (.dec 0 bits) s = .next t ∧ t.params = s.params ∧ t.host = s.host ∧
      t.regs = { Regs.reset with ph := .finalized, op := .dec, status := .emptyInput, done := true
                                 trace := t.regs.trace }) ∧
  (∀ (i : Instr) (s : State) (nMax : Nat), busy s.regs = false → s.params.nMax = some nMax →
    (nMax < match instrOp i with | .enc => instrLen i + redundancy (instrLen i) | .dec => instrLen i) →
    ∃ t, exec i s = .next t ∧ t.params = s.params ∧ t.host = s.host ∧
      t.regs = { Regs.reset with ph := .finalized, op := instrOp i, len := instrLen i, inb := t.regs.inb
                                 status := .lengthOverflow, done := true, trace := t.regs.trace })

/-- R166, R167, R168, R163: with `rst = 0`, a command presented to a block that is not busy reaches `Finalized` in
exactly `r + 4` steps (2 when it is refused), the accepting one included, with the registers of the whole operation,
whatever the ports show during the operation; until then the block is busy and `done = 0`. -/
def Obligations.SequencerRunsTheOperation : Prop :=
  ∀ (c : Params) (σ : Regs) (p : Pins) (ps : List Pins), busy σ = false → p.rst = false → p.cmdValid = true →
    (∀ q ∈ ps, q.rst = false) → ps.length + 1 = operationSteps c p.cmdOp p.cmdLen →
    ticks c (p :: ps) σ = some (operation c p.cmdOp p.cmdLen p.cmdBits) ∧
    (operation c p.cmdOp p.cmdLen p.cmdBits).ph = .finalized ∧
    (refusal c p.cmdOp p.cmdLen = none →
      operationSteps c p.cmdOp p.cmdLen = (operation c p.cmdOp p.cmdLen p.cmdBits).r + 4) ∧
    (refusal c p.cmdOp p.cmdLen ≠ none → operationSteps c p.cmdOp p.cmdLen = 2) ∧
    ∀ m, m < ps.length → ∃ τ, ticks c (p :: ps.take m) σ = some τ ∧ busy τ = true ∧ τ.done = false

/-- R166: the phases a command visits, in order; a refused one visits `InputReceived` and `Finalized` only. -/
def Obligations.PhaseSequence : Prop :=
  ∀ (c : Params) (σ : Regs) (p : Pins) (ps : List Pins), busy σ = false → p.rst = false → p.cmdValid = true →
    (∀ q ∈ ps, q.rst = false) → ps.length < operationSteps c p.cmdOp p.cmdLen →
    ∃ τ, ticks c (p :: ps) σ = some τ ∧
      (ps.length = 0 → τ.ph = .inputReceived) ∧
      (refusal c p.cmdOp p.cmdLen = none →
        (ps.length = 1 → τ.ph = .sizingComputed) ∧ (ps.length = 2 → τ.ph = .layoutBuilt) ∧
        (∀ k, ps.length = k + 3 → k + 4 < operationSteps c p.cmdOp p.cmdLen → τ.ph = .parityBits ∧ τ.k = k)) ∧
      (ps.length + 1 = operationSteps c p.cmdOp p.cmdLen → τ.ph = .finalized)

/-- R150, R167: the machine, clocked edge by edge, does what the instruction does. -/
def Obligations.EdgesRunTheInstruction : Prop :=
  ∀ (s : State) (i : Instr) (ps : List Pins) (rest : List HostAct), busy s.regs = false → WellFormed s.params i →
    (∀ q ∈ ps, q.rst = false ∧ pinsOnPort s.params q = true) →
    ps.length + 1 = operationSteps s.params (instrOp i) (instrLen i) →
    s.host = (presentPins i :: ps).map .edge ++ rest →
    Host.Core.run Sys2Proof.core (ps.length + 1) s = exec i { s with host := rest }

/-! ### The code -/

/-- R136: decoding the codeword that `ENC` published returns the data, with no error detected. The codeword of the
empty string is empty, and decoding it reports `EmptyInput` with empty data (C2 of `90_conflicts.md`). -/
def Obligations.DecodeInvertsEncode : Prop :=
  ∀ (len bits : Nat) (s : State), busy s.regs = false →
    fitsCapacity s.params (len + redundancy len) = true →
    ∃ t u, exec (.enc len bits) s = .next t ∧ exec (.dec t.regs.resCwLen t.regs.resCw) t = .next u ∧
      dataString u.regs = toBits len bits ∧ u.regs.resData = bits % 2 ^ len ∧ u.regs.resDataLen = len ∧
      u.regs.fErr = false ∧ u.regs.fCorr = false ∧ u.regs.resSyndrome = 0 ∧ u.regs.resChk = 0 ∧
      u.regs.resCw = t.regs.resCw ∧ u.regs.resCwLen = t.regs.resCwLen ∧
      u.regs.status = if len = 0 then .emptyInput else .ok

/-- R135: after one flipped bit, at any position, decoding reports that position and returns the codeword and the
data. -/
def Obligations.SingleErrorIsCorrected : Prop :=
  ∀ (len bits q : Nat) (s : State), busy s.regs = false →
    fitsCapacity s.params (len + redundancy len) = true → 1 ≤ q → q ≤ len + redundancy len →
    ∃ t u, exec (.enc len bits) s = .next t ∧
      exec (.dec t.regs.resCwLen (t.regs.resCw ^^^ 2 ^ (q - 1))) t = .next u ∧
      u.regs.status = .ok ∧ u.regs.fErr = true ∧ u.regs.fCorr = true ∧ u.regs.resSyndrome = q ∧
      u.regs.resErrpos = q ∧ u.regs.resCw = t.regs.resCw ∧ u.regs.resCwLen = t.regs.resCwLen ∧
      u.regs.resData = bits % 2 ^ len ∧ u.regs.resDataLen = len

/-- R137: errors at distinct positions give the XOR of these positions as the syndrome, so two errors are never taken for
none. -/
def Obligations.ErrorsXorTheirPositions : Prop :=
  ∀ (d : BitString) (qs : List Nat), qs.Nodup →
    (∀ q ∈ qs, 1 ≤ q ∧ q ≤ (hammingEncode d).codeword.length) →
    syndromeOf ((List.range (hammingEncode d).codeword.length).map fun j =>
      (hammingEncode d).codeword.getD j false ^^ decide (j + 1 ∈ qs)) = qs.foldl (· ^^^ ·) 0 ∧
    (qs.length = 2 → qs.foldl (· ^^^ ·) 0 ≠ 0)

/-- R104(a), R104(b): every check passes on an encoder's codeword, and its data positions read the data in order. -/
def Obligations.EncodedWordSatisfiesItsChecks : Prop :=
  ∀ d : BitString,
    (∀ k, k < redundancy d.length → xorAll ((cover (2 ^ k) (hammingEncode d).codeword.length).map fun i =>
      (hammingEncode d).codeword.getD (i - 1) false) = false) ∧
    (((positions (hammingEncode d).codeword.length).filter fun i => !isParityPos i).map fun i =>
      (hammingEncode d).codeword.getD (i - 1) false) = d

/-- R104(c): `ENC` is linear, and the all-zero string gives the all-zero codeword. -/
def Obligations.EncodeIsLinear : Prop :=
  (∀ d e : BitString, d.length = e.length →
    (hammingEncode (List.zipWith xor d e)).codeword =
      List.zipWith xor (hammingEncode d).codeword (hammingEncode e).codeword) ∧
  (∀ m, (hammingEncode (List.replicate m false)).codeword = List.replicate (m + redundancy m) false)

/-- R104(d): two different data strings of the same length give codewords that differ in at least 3 positions. -/
def Obligations.CodewordsDifferInThreePositions : Prop :=
  ∀ d e : BitString, d.length = e.length → d ≠ e →
    3 ≤ ((List.range (hammingEncode d).codeword.length).filter fun j =>
      (hammingEncode d).codeword.getD j false != (hammingEncode e).codeword.getD j false).length

/-- R138: every syndrome below `2^r` is reached by some word of length `n`, so `UncorrectableSyndrome` can arise exactly
when `n` is not `2^r - 1`. -/
def Obligations.UncorrectableExactlyWhenLengthIsShort : Prop :=
  (∀ n v, v < 2 ^ ppid n → ∃ x : BitString, x.length = n ∧ syndromeOf x = v) ∧
  (∀ n (s : State), n ≠ 0 → busy s.regs = false → fitsCapacity s.params n = true →
    ((∃ bits t, exec (.dec n bits) s = .next t ∧ t.regs.status = .uncorrectableSyndrome) ↔ n + 1 ≠ 2 ^ ppid n))

/-! ### Whole-machine rules -/

/-- R46, R200: in every instance, whatever the host does next, the reset state is a good state. In particular
`State.reset` is: the instance `N_MAX = 15` with the trace port, which is the model's choice (log entry 1), with an empty
list of host acts (log entry 2). -/
def Obligations.ResetIsGood : Prop :=
  (∀ (c : Params) (host : List HostAct), Params.Ok c →
    State.Inv { params := c, regs := Regs.reset, host := host }) ∧
  State.Inv State.reset

/-- R22, R23, R26, R27, R29 to R39: every step from a good state, whatever the host does, leads to a good state:
registers fit their widths and are 0 beyond their lengths, the phase agrees with the registers, `done` and the flags say
what they are to say. Two clauses of the invariant rest on the model's choices and on no rule: that an instance without
the trace port keeps an empty trace (log entry 7), and, for an `ERRPOS_UNCORR` left free, that `res_errpos` fits `SW`
bits (the reduction of log entry 4). -/
def Obligations.StepKeepsTheGoodState : Prop :=
  ∀ s t : State, State.Inv s → step s = .next t → State.Inv t

/-- R164, R168: the block cannot hang. From a good state the sequencer always has a transition, both instructions answer
a next state, and a step answers a next state as well, but for these host acts: an edge with port values wider than the
port; and, presented to a block that is not busy, a number that is no command word (there is no word format, or it is too
wide), port fields that are not well formed, or a command on `$cw` or `$data` while `done = 0`. So a command on `$cw`,
with any flips, or on `$data` never stops while the block is busy or `done = 1`. That the refusals stop the model, and
their names, are its own (log entries 6 and 14). -/
def Obligations.BlockCannotHang : Prop :=
  (∀ (c : Params) (p : Pins) (σ : Regs), Regs.Wf c σ → ∃ τ, tick c p σ = some τ) ∧
  (∀ (i : Instr) (s : State), State.Inv s → ∃ t, exec i s = .next t) ∧
  (∀ s : State, State.Inv s →
    (∃ t, step s = .next t) ∨
    (∃ p rest, s.host = .edge p :: rest ∧ pinsOnPort s.params p = false ∧ step s = .refused .notOnPort) ∨
    (∃ w rest, s.host = .command (.word w) :: rest ∧ busy s.regs = false ∧ s.params.nMax = none ∧
      step s = .refused (.notACommandWord .noWordFormat)) ∨
    (∃ w rest nMax, s.host = .command (.word w) :: rest ∧ busy s.regs = false ∧ s.params.nMax = some nMax ∧
      2 ^ (1 + lw nMax + nMax) ≤ w ∧ step s = .refused (.notACommandWord .tooWide)) ∨
    (∃ op len bits rest, s.host = .command (.fields op len bits) :: rest ∧ busy s.regs = false ∧
      ¬ WellFormed s.params (instrOfFields op len bits) ∧ step s = .refused .notOnPort) ∨
    (∃ op flips rest,
      (s.host = .command (.prevCodeword op flips) :: rest ∨ s.host = .command (.prevData op) :: rest) ∧
      busy s.regs = false ∧ s.regs.done = false ∧ step s = .refused .noResult)) ∧
  (∀ (s : State) (op : Op) (flips : List Nat) (rest : List HostAct), State.Inv s →
    s.host = .command (.prevCodeword op flips) :: rest ∨ s.host = .command (.prevData op) :: rest →
    busy s.regs = true ∨ s.regs.done = true → ∃ t, step s = .next t)

/-- R40, R18: the registers after an instruction are a function of the command and of the instance alone. -/
def Obligations.NothingSurvivesAnOperation : Prop :=
  ∀ (i : Instr) (s s' t t' : State), busy s.regs = false → busy s'.regs = false → s.params = s'.params →
    exec i s = .next t → exec i s' = .next t' → t.regs = t'.regs

/-- R41, R172: the trace is append-only within an operation. -/
def Obligations.TraceIsAppendOnly : Prop :=
  ∀ (c : Params) (p : Pins) (σ τ : Regs), busy σ = true → p.rst = false → tick c p σ = some τ →
    ∃ evs, τ.trace = σ.trace ++ evs

/-- R171: the complete trace of a valid command has `r + 5` events, that of a refused one 2. -/
def Obligations.TraceEventCounts : Prop :=
  ∀ (c : Params) (op : Op) (len bits : Nat), c.traceEn = true →
    (refusal c op len = none → (operation c op len bits).trace.length = (operation c op len bits).r + 5) ∧
    (refusal c op len ≠ none → (operation c op len bits).trace.length = 2)

/-- R41, R172: no other register depends on the trace, nor on whether the instance has the port. -/
def Obligations.TraceInfluencesNothing : Prop :=
  ∀ (c : Params) (en : Bool) (p : Pins) (σ τ : Regs) (tr : List Event), tick c p σ = some τ →
    ∃ tr', tick { c with traceEn := en } p { σ with trace := tr } = some { τ with trace := tr' }

/-- R39, `92_eei_decisions.md` D9: the parameter `ERRPOS_UNCORR` shows in `res_errpos` alone, and only after
`UncorrectableSyndrome`. There `res_errpos` is the syndrome for the default and 0 for the constant 0. For an
`ERRPOS_UNCORR` left free it is the free function of the syndrome, reduced to `SW` bits in a finite instance: that form
is the model's choice (log entry 4), and the statement holds for every such function. -/
def Obligations.ErrposParameterShowsInErrposOnly : Prop :=
  ∀ (c : Params) (e : ErrposUncorr) (op : Op) (len bits : Nat),
    (∃ v, operation { c with errpos := e } op len bits = { operation c op len bits with resErrpos := v }) ∧
    ((operation c op len bits).status ≠ .uncorrectableSyndrome →
      operation { c with errpos := e } op len bits = operation c op len bits) ∧
    ((operation c op len bits).status = .uncorrectableSyndrome →
      (c.errpos = .syndrome → (operation c op len bits).resErrpos = (operation c op len bits).resSyndrome) ∧
      (c.errpos = .zero → (operation c op len bits).resErrpos = 0) ∧
      (c.errpos = .other → c.nMax = none →
        (operation c op len bits).resErrpos = Config.errposOther (operation c op len bits).resSyndrome) ∧
      (c.errpos = .other → ∀ nMax, c.nMax = some nMax →
        (operation c op len bits).resErrpos =
          Config.errposOther (operation c op len bits).resSyndrome % 2 ^ sw nMax))

/-- R206, R79, R80: results are read only when `done = 1`. In a good state `done = 0` while the block is busy, and with
`done = 0` the result port reads as cleared. A program line on `$cw` or `$data` in a block that is not busy is carried out
when `done = 1`: on `res_cw`, as a string of `res_cw_len` symbols with a position inverted once for each `FLIP` of it, or
on `res_data`. With `done = 0` it is not carried out; that the model stops there, and the name, are its own (log
entry 14). -/
def Obligations.ResultsAreReadOnlyWhenDone : Prop :=
  (∀ s : State, State.Inv s →
    (busy s.regs = true → s.regs.done = false) ∧ (s.regs.done = false → Regs.Cleared s.regs)) ∧
  (∀ (s : State) (op : Op) (flips : List Nat) (rest : List HostAct), State.Inv s →
    s.host = .command (.prevCodeword op flips) :: rest → busy s.regs = false → s.regs.done = true →
    ∃ bits, (∀ j, bits.testBit j = (decide (j < s.regs.resCwLen) &&
        (s.regs.resCw.testBit j ^^ decide (flips.count (j + 1) % 2 = 1)))) ∧
      step s = exec (instrOfFields op s.regs.resCwLen bits) { s with host := rest }) ∧
  (∀ (s : State) (op : Op) (rest : List HostAct), State.Inv s →
    s.host = .command (.prevData op) :: rest → busy s.regs = false → s.regs.done = true →
    step s = exec (instrOfFields op s.regs.resDataLen s.regs.resData) { s with host := rest }) ∧
  (∀ (s : State) (op : Op) (flips : List Nat) (rest : List HostAct),
    s.host = .command (.prevCodeword op flips) :: rest ∨ s.host = .command (.prevData op) :: rest →
    busy s.regs = false → s.regs.done = false → step s = .refused .noResult)
end

