-- ==== Sys2Proof/Laws/Bits.lean ====
section
/-! SUPPORT. Vectors and strings: what `setBit`, `ofBits`, `toBits`, `memRead` and `memWrite` do, and that they keep a
vector 0 beyond its length. -/

namespace Sys2Proof.Machine

/-- Everything `setBit` does: index `j` holds `v`, every other index is as before. -/
@[simp] theorem testBit_setBit (x : Nat) (j i : Nat) (v : Bool) :
    (setBit x j v).testBit i = if i = j then v else x.testBit i := by
  unfold setBit
  by_cases hij : i = j
  · subst hij
    split
    · simp_all
    · cases v <;> simp_all [Nat.testBit_xor]
  · split
    · simp
    · simp [Nat.testBit_xor, Ne.symm hij]

theorem setBit_lt {x n j : Nat} {v : Bool} (hx : x < 2 ^ n) (hj : j < n) : setBit x j v < 2 ^ n := by
  unfold setBit
  split
  · exact hx
  · exact Nat.xor_lt_two_pow hx (Nat.pow_lt_pow_right (by decide) hj)

/-- Two vectors with the same bits are the same vector. -/
theorem bits_ext {x y : Nat} (h : ∀ i, x.testBit i = y.testBit i) : x = y := Nat.eq_of_testBit_eq h

@[simp] theorem ofBits_nil : ofBits [] = 0 := rfl

theorem ofBits_lt (d : BitString) : ofBits d < 2 ^ d.length := by
  induction d with
  | nil => decide
  | cons b bs ih =>
    have hb : b.toNat ≤ 1 := Bool.toNat_le b
    simp only [ofBits, List.length_cons, Nat.pow_succ]
    omega

/-- Index `j` of `ofBits d` is the `(j+1)`-th symbol of `d`, 0 beyond it. -/
theorem testBit_ofBits (d : BitString) (j : Nat) : (ofBits d).testBit j = d.getD j false := by
  induction d generalizing j with
  | nil => simp [ofBits]
  | cons b bs ih =>
    cases j with
    | zero => cases b <;> simp [ofBits, Nat.testBit_zero]
    | succ j =>
      have h : (b.toNat + 2 * ofBits bs) / 2 = ofBits bs := by have := Bool.toNat_le b; omega
      simp [ofBits, Nat.testBit_succ, h, ih]

@[simp] theorem toBits_length (len : Nat) (x : Nat) : (toBits len x).length = len := by simp [toBits]

theorem toBits_getD (len : Nat) (x : Nat) (j : Nat) :
    (toBits len x).getD j false = (decide (j < len) && x.testBit j) := by
  by_cases h : j < len <;> simp [toBits, List.getD, h]

@[simp] theorem toBits_ofBits (d : BitString) : toBits d.length (ofBits d) = d := by
  apply List.ext_getElem
  · simp
  · intro j h₁ h₂
    have := testBit_ofBits d j
    simp_all [toBits, List.getD]

theorem testBit_ofBits_toBits (len : Nat) (x : Nat) (j : Nat) :
    (ofBits (toBits len x)).testBit j = (decide (j < len) && x.testBit j) := by
  rw [testBit_ofBits, toBits_getD]

theorem ofBits_toBits (len : Nat) (x : Nat) : ofBits (toBits len x) = x % 2 ^ len :=
  bits_ext fun j => by rw [testBit_ofBits_toBits, Nat.testBit_mod_two_pow]

theorem ofBits_toBits_of_lt {len : Nat} {x : Nat} (h : x < 2 ^ len) : ofBits (toBits len x) = x := by
  rw [ofBits_toBits, Nat.mod_eq_of_lt h]

/-- Only the first `len` indices of a vector are read as a string of length `len`. -/
theorem toBits_mod (len : Nat) (x : Nat) : toBits len (x % 2 ^ len) = toBits len x := by
  apply List.map_congr_left
  intro j hj
  simp [Nat.testBit_mod_two_pow, List.mem_range.1 hj]

/-- Everything `MemWrite` does, at positions that exist: position `i` reads `v`, every other as before. -/
theorem memRead_memWrite {buf : Nat} {i j : Nat} {v : Bool} (hi : 1 ≤ i) (hj : 1 ≤ j) :
    memRead (memWrite buf i v) j = if j = i then v else memRead buf j := by
  have : (j - 1 = i - 1) = (j = i) := by simp; omega
  simp [memRead, memWrite, this]

/-- `MemWrite` at a position of `1..n` keeps the buffer 0 beyond it. -/
theorem memWrite_lt {buf n i : Nat} {v : Bool} (hb : buf < 2 ^ n) (h1 : 1 ≤ i) (hi : i ≤ n) :
    memWrite buf i v < 2 ^ n := setBit_lt hb (by omega)

/-- Writes at different positions commute (`20_memory.md` R61). -/
theorem memWrite_comm {buf i j : Nat} {v w : Bool} (hi : 1 ≤ i) (hj : 1 ≤ j) (hij : i ≠ j) :
    memWrite (memWrite buf i v) j w = memWrite (memWrite buf j w) i v := by
  apply bits_ext
  intro b
  simp only [memWrite, testBit_setBit]
  split <;> split <;> first | rfl | omega

end Sys2Proof.Machine
end

