-- ==== Sys2Proof/Laws/Positions.lean ====
section
/-! SUPPORT. The position space: which positions a cover and the data positions hold, and the widths. -/

namespace Sys2Proof.Machine

@[simp] theorem mem_positions {n i : Nat} : i ∈ positions n ↔ 1 ≤ i ∧ i ≤ n := by
  simp [positions, List.mem_range'_1]; omega

@[simp] theorem positions_length (n : Nat) : (positions n).length = n := by simp [positions]

theorem positions_succ (n : Nat) : positions (n + 1) = positions n ++ [n + 1] := by
  simp [positions, List.range'_concat]; omega

/-- `i AND 2^k = 2^k` says that bit `k` of `i` is 1 (`00_scope.md` R11). -/
theorem and_two_pow_eq_iff (i k : Nat) : i &&& 2 ^ k = 2 ^ k ↔ i.testBit k = true := by
  rw [Nat.and_two_pow]
  cases i.testBit k <;> simp [(Nat.two_pow_pos k).ne]

/-- What the cover of a parity position holds. -/
@[simp] theorem mem_cover {k n i : Nat} : i ∈ cover (2 ^ k) n ↔ (1 ≤ i ∧ i ≤ n) ∧ i.testBit k = true := by
  simp [cover, and_two_pow_eq_iff]

/-- No cover leaves `1..n` (`20_memory.md` R55). -/
theorem cover_in_range {p n i : Nat} (h : i ∈ cover p n) : 1 ≤ i ∧ i ≤ n := by
  simp only [cover, List.mem_filter, mem_positions] at h; exact h.1

/-- A parity position is a power of two (`00_scope.md` R10). -/
theorem isParityPos_iff (i : Nat) : isParityPos i = true ↔ ∃ k, i = 2 ^ k := by
  constructor
  · intro h
    simp only [isParityPos, Bool.and_eq_true, bne_iff_ne, ne_eq, beq_iff_eq] at h
    obtain ⟨h0, h⟩ := h
    have hlo := Nat.log2_self_le h0
    have hhi := Nat.lt_log2_self (n := i)
    refine ⟨i.log2, ?_⟩
    by_contra hne
    have hlt : 2 ^ i.log2 < i := by omega
    have hb : i.testBit i.log2 = true := Nat.testBit_log2 h0
    have hb' : (i - 1).testBit i.log2 = true := by
      have : (i - 1).log2 = i.log2 := by
        apply (Nat.log2_eq_iff (by omega)).2; omega
      rw [← this]; exact Nat.testBit_log2 (by have := Nat.two_pow_pos i.log2; omega)
    have : (i &&& (i - 1)).testBit i.log2 = true := by rw [Nat.testBit_and, hb, hb']; rfl
    rw [h] at this; simp at this
  · rintro ⟨k, rfl⟩
    have : 2 ^ k &&& (2 ^ k - 1) = 0 := by
      rw [Nat.and_two_pow_sub_one_eq_mod]; simp
    simp [isParityPos, this]

theorem isParityPos_two_pow (k : Nat) : isParityPos (2 ^ k) = true := (isParityPos_iff _).2 ⟨k, rfl⟩

@[simp] theorem mem_dataPositions {n i : Nat} :
    i ∈ dataPositions n ↔ (1 ≤ i ∧ i ≤ n) ∧ isParityPos i = false := by simp [dataPositions]

@[simp] theorem bitlen_zero : bitlen 0 = 0 := rfl

/-- What `bitlen` is: the powers of two not exceeding `v` are those with exponent below it (`00_scope.md` R5). -/
theorem lt_bitlen_iff (v k : Nat) : k < bitlen v ↔ 2 ^ k ≤ v := by
  unfold bitlen
  split
  · subst_vars; simp
  · rename_i h
    rw [Nat.lt_succ_iff, Nat.le_log2 h]

theorem lt_two_pow_bitlen (v : Nat) : v < 2 ^ bitlen v := by
  have := (lt_bitlen_iff v (bitlen v)).not; simpa using this

/-- `bitlen v` is the only length with these bounds. -/
theorem bitlen_unique {v r : Nat} (h : ∀ k, k < r ↔ 2 ^ k ≤ v) : bitlen v = r := by
  have h1 := (h (bitlen v)).trans (lt_bitlen_iff v (bitlen v)).symm
  have h2 := (h r).trans (lt_bitlen_iff v r).symm
  simp only [lt_self_iff_false, iff_false, not_lt, false_iff] at h1 h2
  omega

theorem bitlen_mono {a b : Nat} (h : a ≤ b) : bitlen a ≤ bitlen b := by
  by_contra hc
  have h1 := (lt_bitlen_iff a (bitlen b)).1 (by omega)
  have h2 := lt_two_pow_bitlen b
  omega

theorem dataPositions_succ (n : Nat) :
    dataPositions (n + 1) = dataPositions n ++ (if isParityPos (n + 1) then [] else [n + 1]) := by
  unfold dataPositions; rw [positions_succ, List.filter_append]; cases h : isParityPos (n + 1) <;> simp [h]

/-- `bitlen` grows by one at each power of two. -/
theorem bitlen_succ (n : Nat) : bitlen (n + 1) = bitlen n + if isParityPos (n + 1) then 1 else 0 := by
  apply bitlen_unique
  intro k
  rw [← lt_bitlen_iff]
  have e1 := lt_bitlen_iff n k
  have e2 := lt_bitlen_iff (n + 1) k
  cases h : isParityPos (n + 1)
  · simp only [Bool.false_eq_true, if_false, Nat.add_zero]
    rw [e1, e2]
    constructor
    · intro h; omega
    · intro h'
      have : 2 ^ k ≠ n + 1 := by intro hc; have := isParityPos_two_pow k; rw [hc] at this; simp_all
      omega
  · simp only [if_true]
    obtain ⟨q, hq⟩ := (isParityPos_iff _).1 h
    have hbn : bitlen n = q := by
      apply bitlen_unique
      intro k
      constructor
      · intro hk; have := (Nat.pow_lt_pow_iff_right (a := 2) (by decide)).2 hk; omega
      · intro hk; exact (Nat.pow_lt_pow_iff_right (a := 2) (by decide)).1 (by omega)
    rw [hbn, e2, hq, Nat.pow_le_pow_iff_right (by decide)]; omega

/-- Of the positions `1..n`, `bitlen n` are parity positions and the others are data positions. -/
theorem dataPositions_length (n : Nat) : (dataPositions n).length + bitlen n = n := by
  induction n with
  | zero => decide
  | succ n ih => rw [dataPositions_succ, bitlen_succ]; cases isParityPos (n + 1) <;> simp <;> omega

/-- A data position `i` stands in the list of data positions after those below `i`. -/
theorem dataPositions_split {n i : Nat} (h1 : 1 ≤ i) (hn : i ≤ n) (hp : isParityPos i = false) :
    ∃ tl, dataPositions n = dataPositions (i - 1) ++ i :: tl := by
  induction n with
  | zero => omega
  | succ n ih =>
    rw [dataPositions_succ]
    rcases Nat.lt_or_eq_of_le hn with hlt | heq
    · obtain ⟨tl, ht⟩ := ih (by omega)
      exact ⟨tl ++ _, by rw [ht]; simp; rfl⟩
    · rw [← heq, show i - 1 = n by omega, hp]; exact ⟨[], by simp⟩

end Sys2Proof.Machine
end

