-- ==== Sys2Proof/Laws/Loops.lean ====
section
/-! SUPPORT. The two searches, `SIZE` and `PPID`: what the loops answer from any start with any fuel. -/

namespace Sys2Proof.Machine

@[simp] theorem sizeOk_iff (m r : Nat) : sizeOk m r = true ↔ m + r + 1 ≤ 2 ^ r := by simp [sizeOk]

/-- `2^r - r` does not decrease, so the predicate of `SIZE` stays true once it is (`40_encoder.md` R91). -/
theorem sizeOk_succ {m r : Nat} (h : sizeOk m r = true) : sizeOk m (r + 1) = true := by
  rw [sizeOk_iff] at *
  rw [Nat.pow_succ]
  omega

/-- The predicate holds at `m + 1` (R91). -/
theorem sizeOk_bound (m : Nat) : sizeOk m (m + 1) = true := by
  rw [sizeOk_iff, Nat.pow_succ]
  have : m + 1 ≤ 2 ^ m := Nat.lt_two_pow_self
  omega

/-- What the search of `SIZE` answers, where its fuel reaches a candidate that passes: the first one that does. -/
theorem sizeLoop_spec (m : Nat) : ∀ fuel r, sizeOk m (r + fuel) = true →
    sizeOk m (sizeLoop m fuel r) = true ∧ r ≤ sizeLoop m fuel r ∧ sizeLoop m fuel r ≤ r + fuel ∧
      ∀ q, r ≤ q → q < sizeLoop m fuel r → sizeOk m q = false := by
  intro fuel
  induction fuel with
  | zero => intro r h; exact ⟨h, le_refl r, le_refl r, fun q h1 h2 => by simp only [sizeLoop] at h2; omega⟩
  | succ fuel ih =>
    intro r h
    by_cases hr : sizeOk m r = true
    · simp only [sizeLoop, hr, if_true]
      exact ⟨trivial, le_refl r, by omega, fun q h1 h2 => by omega⟩
    · have hr' : sizeOk m r = false := Bool.eq_false_of_not_eq_true hr
      simp only [sizeLoop, hr', Bool.false_eq_true, if_false]
      obtain ⟨h1, h2, h3, h4⟩ := ih (r + 1) (by rwa [Nat.add_right_comm, Nat.add_assoc])
      refine ⟨h1, by omega, by omega, fun q hq hq' => ?_⟩
      rcases Nat.eq_or_lt_of_le hq with rfl | hq
      · exact hr'
      · exact h4 q hq hq'

/-- What the search of `PPID` answers, where its fuel reaches a power of two above `n`. -/
theorem ppidLoop_spec (n : Nat) : ∀ fuel r, n < 2 ^ (r + fuel) → (∀ k, k < r → 2 ^ k ≤ n) →
    ∀ k, k < ppidLoop n fuel r ↔ 2 ^ k ≤ n := by
  intro fuel
  induction fuel with
  | zero =>
    intro r h hr k
    refine ⟨hr k, fun hk => ?_⟩
    simp only [ppidLoop]
    exact (Nat.pow_lt_pow_iff_right (by decide)).1 (lt_of_le_of_lt hk h)
  | succ fuel ih =>
    intro r h hr k
    simp only [ppidLoop]
    split
    · rename_i hle
      apply ih (r + 1) (by rwa [Nat.add_right_comm, Nat.add_assoc])
      intro k hk
      rcases Nat.lt_succ_iff_lt_or_eq.1 hk with hk | rfl
      · exact hr k hk
      · exact hle
    · rename_i hlt
      refine ⟨hr k, fun hk => ?_⟩
      exact (Nat.pow_lt_pow_iff_right (by decide)).1 (lt_of_le_of_lt hk (by omega : n < 2 ^ r))

end Sys2Proof.Machine
end

