-- ==== Sys2Proof/Laws/State.lean ====
section
/-! SUPPORT. One lemma for each register and each shared update of the registers, so that no later proof unfolds a
record update. -/

namespace Sys2Proof.Machine

/-! ### `emit` writes `trace` only -/

@[simp] theorem emit_ph (c : Params) (evs : List Event) (σ : Regs) : (emit c evs σ).ph = σ.ph := by
  unfold emit; split <;> rfl
@[simp] theorem emit_k (c : Params) (evs : List Event) (σ : Regs) : (emit c evs σ).k = σ.k := by
  unfold emit; split <;> rfl
@[simp] theorem emit_op (c : Params) (evs : List Event) (σ : Regs) : (emit c evs σ).op = σ.op := by
  unfold emit; split <;> rfl
@[simp] theorem emit_len (c : Params) (evs : List Event) (σ : Regs) : (emit c evs σ).len = σ.len := by
  unfold emit; split <;> rfl
@[simp] theorem emit_inb (c : Params) (evs : List Event) (σ : Regs) : (emit c evs σ).inb = σ.inb := by
  unfold emit; split <;> rfl
@[simp] theorem emit_r (c : Params) (evs : List Event) (σ : Regs) : (emit c evs σ).r = σ.r := by
  unfold emit; split <;> rfl
@[simp] theorem emit_n (c : Params) (evs : List Event) (σ : Regs) : (emit c evs σ).n = σ.n := by
  unfold emit; split <;> rfl
@[simp] theorem emit_buf (c : Params) (evs : List Event) (σ : Regs) : (emit c evs σ).buf = σ.buf := by
  unfold emit; split <;> rfl
@[simp] theorem emit_chk (c : Params) (evs : List Event) (σ : Regs) : (emit c evs σ).chk = σ.chk := by
  unfold emit; split <;> rfl
@[simp] theorem emit_status (c : Params) (evs : List Event) (σ : Regs) : (emit c evs σ).status = σ.status := by
  unfold emit; split <;> rfl
@[simp] theorem emit_done (c : Params) (evs : List Event) (σ : Regs) : (emit c evs σ).done = σ.done := by
  unfold emit; split <;> rfl
@[simp] theorem emit_fErr (c : Params) (evs : List Event) (σ : Regs) : (emit c evs σ).fErr = σ.fErr := by
  unfold emit; split <;> rfl
@[simp] theorem emit_fCorr (c : Params) (evs : List Event) (σ : Regs) : (emit c evs σ).fCorr = σ.fCorr := by
  unfold emit; split <;> rfl
@[simp] theorem emit_resCw (c : Params) (evs : List Event) (σ : Regs) : (emit c evs σ).resCw = σ.resCw := by
  unfold emit; split <;> rfl
@[simp] theorem emit_resCwLen (c : Params) (evs : List Event) (σ : Regs) : (emit c evs σ).resCwLen = σ.resCwLen := by
  unfold emit; split <;> rfl
@[simp] theorem emit_resData (c : Params) (evs : List Event) (σ : Regs) : (emit c evs σ).resData = σ.resData := by
  unfold emit; split <;> rfl
@[simp] theorem emit_resDataLen (c : Params) (evs : List Event) (σ : Regs) : (emit c evs σ).resDataLen = σ.resDataLen := by
  unfold emit; split <;> rfl
@[simp] theorem emit_resR (c : Params) (evs : List Event) (σ : Regs) : (emit c evs σ).resR = σ.resR := by
  unfold emit; split <;> rfl
@[simp] theorem emit_resChk (c : Params) (evs : List Event) (σ : Regs) : (emit c evs σ).resChk = σ.resChk := by
  unfold emit; split <;> rfl
@[simp] theorem emit_resSyndrome (c : Params) (evs : List Event) (σ : Regs) : (emit c evs σ).resSyndrome = σ.resSyndrome := by
  unfold emit; split <;> rfl
@[simp] theorem emit_resErrpos (c : Params) (evs : List Event) (σ : Regs) : (emit c evs σ).resErrpos = σ.resErrpos := by
  unfold emit; split <;> rfl
@[simp] theorem emit_trace (c : Params) (evs : List Event) (σ : Regs) :
    (emit c evs σ).trace = if c.traceEn then σ.trace ++ evs else σ.trace := by
  unfold emit; split <;> rfl

/-! ### `raise` writes `status`, and `resSyndrome` where the condition carries a syndrome -/

@[simp] theorem raise_ph (cond : Condition) (σ : Regs) : (raise cond σ).ph = σ.ph := by cases cond <;> rfl
@[simp] theorem raise_k (cond : Condition) (σ : Regs) : (raise cond σ).k = σ.k := by cases cond <;> rfl
@[simp] theorem raise_op (cond : Condition) (σ : Regs) : (raise cond σ).op = σ.op := by cases cond <;> rfl
@[simp] theorem raise_len (cond : Condition) (σ : Regs) : (raise cond σ).len = σ.len := by cases cond <;> rfl
@[simp] theorem raise_inb (cond : Condition) (σ : Regs) : (raise cond σ).inb = σ.inb := by cases cond <;> rfl
@[simp] theorem raise_r (cond : Condition) (σ : Regs) : (raise cond σ).r = σ.r := by cases cond <;> rfl
@[simp] theorem raise_n (cond : Condition) (σ : Regs) : (raise cond σ).n = σ.n := by cases cond <;> rfl
@[simp] theorem raise_buf (cond : Condition) (σ : Regs) : (raise cond σ).buf = σ.buf := by cases cond <;> rfl
@[simp] theorem raise_chk (cond : Condition) (σ : Regs) : (raise cond σ).chk = σ.chk := by cases cond <;> rfl
@[simp] theorem raise_status (cond : Condition) (σ : Regs) : (raise cond σ).status = conditionStatus cond := by
  cases cond <;> rfl
@[simp] theorem raise_done (cond : Condition) (σ : Regs) : (raise cond σ).done = σ.done := by cases cond <;> rfl
@[simp] theorem raise_fErr (cond : Condition) (σ : Regs) : (raise cond σ).fErr = σ.fErr := by cases cond <;> rfl
@[simp] theorem raise_fCorr (cond : Condition) (σ : Regs) : (raise cond σ).fCorr = σ.fCorr := by cases cond <;> rfl
@[simp] theorem raise_resCw (cond : Condition) (σ : Regs) : (raise cond σ).resCw = σ.resCw := by cases cond <;> rfl
@[simp] theorem raise_resCwLen (cond : Condition) (σ : Regs) : (raise cond σ).resCwLen = σ.resCwLen := by cases cond <;> rfl
@[simp] theorem raise_resData (cond : Condition) (σ : Regs) : (raise cond σ).resData = σ.resData := by cases cond <;> rfl
@[simp] theorem raise_resDataLen (cond : Condition) (σ : Regs) : (raise cond σ).resDataLen = σ.resDataLen := by cases cond <;> rfl
@[simp] theorem raise_resR (cond : Condition) (σ : Regs) : (raise cond σ).resR = σ.resR := by cases cond <;> rfl
@[simp] theorem raise_resChk (cond : Condition) (σ : Regs) : (raise cond σ).resChk = σ.resChk := by cases cond <;> rfl
@[simp] theorem raise_resSyndrome (cond : Condition) (σ : Regs) :
    (raise cond σ).resSyndrome =
      (match cond with | .emptyInput => σ.resSyndrome | .uncorrectableSyndrome s => s | .lengthOverflow => σ.resSyndrome) := by
  cases cond <;> rfl
@[simp] theorem raise_resErrpos (cond : Condition) (σ : Regs) : (raise cond σ).resErrpos = σ.resErrpos := by cases cond <;> rfl
@[simp] theorem raise_trace (cond : Condition) (σ : Regs) : (raise cond σ).trace = σ.trace := by cases cond <;> rfl

/-! ### `raiseLocated` writes `status` and `resSyndrome`, for an uncorrectable syndrome only -/

@[simp] theorem raiseLocated_ph (loc : Located) (σ : Regs) : (raiseLocated loc σ).ph = σ.ph := by cases loc <;> rfl
@[simp] theorem raiseLocated_k (loc : Located) (σ : Regs) : (raiseLocated loc σ).k = σ.k := by cases loc <;> rfl
@[simp] theorem raiseLocated_op (loc : Located) (σ : Regs) : (raiseLocated loc σ).op = σ.op := by cases loc <;> rfl
@[simp] theorem raiseLocated_len (loc : Located) (σ : Regs) : (raiseLocated loc σ).len = σ.len := by cases loc <;> rfl
@[simp] theorem raiseLocated_inb (loc : Located) (σ : Regs) : (raiseLocated loc σ).inb = σ.inb := by cases loc <;> rfl
@[simp] theorem raiseLocated_r (loc : Located) (σ : Regs) : (raiseLocated loc σ).r = σ.r := by cases loc <;> rfl
@[simp] theorem raiseLocated_n (loc : Located) (σ : Regs) : (raiseLocated loc σ).n = σ.n := by cases loc <;> rfl
@[simp] theorem raiseLocated_buf (loc : Located) (σ : Regs) : (raiseLocated loc σ).buf = σ.buf := by cases loc <;> rfl
@[simp] theorem raiseLocated_chk (loc : Located) (σ : Regs) : (raiseLocated loc σ).chk = σ.chk := by cases loc <;> rfl
@[simp] theorem raiseLocated_status (loc : Located) (σ : Regs) :
    (raiseLocated loc σ).status =
      (match loc with | .noError => σ.status | .correct _ => σ.status | .uncorrectable _ => .uncorrectableSyndrome) := by
  cases loc <;> rfl
@[simp] theorem raiseLocated_done (loc : Located) (σ : Regs) : (raiseLocated loc σ).done = σ.done := by cases loc <;> rfl
@[simp] theorem raiseLocated_fErr (loc : Located) (σ : Regs) : (raiseLocated loc σ).fErr = σ.fErr := by cases loc <;> rfl
@[simp] theorem raiseLocated_fCorr (loc : Located) (σ : Regs) : (raiseLocated loc σ).fCorr = σ.fCorr := by cases loc <;> rfl
@[simp] theorem raiseLocated_resCw (loc : Located) (σ : Regs) : (raiseLocated loc σ).resCw = σ.resCw := by cases loc <;> rfl
@[simp] theorem raiseLocated_resCwLen (loc : Located) (σ : Regs) : (raiseLocated loc σ).resCwLen = σ.resCwLen := by cases loc <;> rfl
@[simp] theorem raiseLocated_resData (loc : Located) (σ : Regs) : (raiseLocated loc σ).resData = σ.resData := by cases loc <;> rfl
@[simp] theorem raiseLocated_resDataLen (loc : Located) (σ : Regs) : (raiseLocated loc σ).resDataLen = σ.resDataLen := by cases loc <;> rfl
@[simp] theorem raiseLocated_resR (loc : Located) (σ : Regs) : (raiseLocated loc σ).resR = σ.resR := by cases loc <;> rfl
@[simp] theorem raiseLocated_resChk (loc : Located) (σ : Regs) : (raiseLocated loc σ).resChk = σ.resChk := by cases loc <;> rfl
@[simp] theorem raiseLocated_resSyndrome (loc : Located) (σ : Regs) :
    (raiseLocated loc σ).resSyndrome =
      (match loc with | .noError => σ.resSyndrome | .correct _ => σ.resSyndrome | .uncorrectable s => s) := by
  cases loc <;> rfl
@[simp] theorem raiseLocated_resErrpos (loc : Located) (σ : Regs) : (raiseLocated loc σ).resErrpos = σ.resErrpos := by cases loc <;> rfl
@[simp] theorem raiseLocated_trace (loc : Located) (σ : Regs) : (raiseLocated loc σ).trace = σ.trace := by cases loc <;> rfl

/-! ### The reset state (`10_state.md` R46) -/

@[simp] theorem reset_ph : Regs.reset.ph = .idle := rfl
@[simp] theorem reset_k : Regs.reset.k = 0 := rfl
@[simp] theorem reset_op : Regs.reset.op = .enc := rfl
@[simp] theorem reset_len : Regs.reset.len = 0 := rfl
@[simp] theorem reset_inb : Regs.reset.inb = 0 := rfl
@[simp] theorem reset_r : Regs.reset.r = 0 := rfl
@[simp] theorem reset_n : Regs.reset.n = 0 := rfl
@[simp] theorem reset_buf : Regs.reset.buf = 0 := rfl
@[simp] theorem reset_chk : Regs.reset.chk = 0 := rfl
@[simp] theorem reset_status : Regs.reset.status = .ok := rfl
@[simp] theorem reset_done : Regs.reset.done = false := rfl
@[simp] theorem reset_fErr : Regs.reset.fErr = false := rfl
@[simp] theorem reset_fCorr : Regs.reset.fCorr = false := rfl
@[simp] theorem reset_resCw : Regs.reset.resCw = 0 := rfl
@[simp] theorem reset_resCwLen : Regs.reset.resCwLen = 0 := rfl
@[simp] theorem reset_resData : Regs.reset.resData = 0 := rfl
@[simp] theorem reset_resDataLen : Regs.reset.resDataLen = 0 := rfl
@[simp] theorem reset_resR : Regs.reset.resR = 0 := rfl
@[simp] theorem reset_resChk : Regs.reset.resChk = 0 := rfl
@[simp] theorem reset_resSyndrome : Regs.reset.resSyndrome = 0 := rfl
@[simp] theorem reset_resErrpos : Regs.reset.resErrpos = 0 := rfl
@[simp] theorem reset_trace : Regs.reset.trace = [] := rfl

/-! ### The machine's own fields -/

@[simp] theorem State.setRegs_params (s : State) (σ : Regs) : ({ s with regs := σ } : State).params = s.params := rfl
@[simp] theorem State.setRegs_regs (s : State) (σ : Regs) : ({ s with regs := σ } : State).regs = σ := rfl
@[simp] theorem State.setRegs_host (s : State) (σ : Regs) : ({ s with regs := σ } : State).host = s.host := rfl
@[simp] theorem State.setHost_params (s : State) (h : List HostAct) : ({ s with host := h } : State).params = s.params := rfl
@[simp] theorem State.setHost_regs (s : State) (h : List HostAct) : ({ s with host := h } : State).regs = s.regs := rfl
@[simp] theorem State.setHost_host (s : State) (h : List HostAct) : ({ s with host := h } : State).host = h := rfl

end Sys2Proof.Machine
end

