-- ==== Sys2Proof/Laws/Sequencer.lean ====
section
/-! SUPPORT. One lemma for each row of the table of transitions (`42_sequencer.md` R150), and the inversion lemmas of
`tick`, `clock`, `perform`, `exec` and `step`: everything each of them can do. -/

namespace Sys2Proof.Machine

variable {c : Params} {p : Pins} {σ σ' : Regs}

theorem tick_rst (h : p.rst = true) : tick c p σ = some Regs.reset := by simp [tick, h]

theorem tick_hold (h : p.rst = false) (hv : p.cmdValid = false) (hph : σ.ph = .idle ∨ σ.ph = .finalized) :
    tick c p σ = some σ := by
  rcases hph with hph | hph <;> simp [tick, h, hv, hph]

theorem tick_accept (h : p.rst = false) (hv : p.cmdValid = true) (hph : σ.ph = .idle ∨ σ.ph = .finalized) :
    tick c p σ = some (accept c p.cmdOp p.cmdLen p.cmdBits) := by
  rcases hph with hph | hph <;> simp [tick, h, hv, hph]

theorem tick_inputReceived_invalid {cond : Condition} (h : p.rst = false) (hph : σ.ph = .inputReceived)
    (hr : refusal c σ.op σ.len = some cond) : tick c p σ = some (refuse c cond σ) := by
  simp [tick, h, hph, hr]

theorem tick_inputReceived_valid (h : p.rst = false) (hph : σ.ph = .inputReceived)
    (hr : refusal c σ.op σ.len = none) : tick c p σ = some (sizing c σ) := by
  simp [tick, h, hph, hr]

theorem tick_sizingComputed (h : p.rst = false) (hph : σ.ph = .sizingComputed) :
    tick c p σ = some (layout c σ) := by
  simp [tick, h, hph]

theorem tick_layoutBuilt (h : p.rst = false) (hph : σ.ph = .layoutBuilt) (hr : 0 < σ.r) :
    tick c p σ = some (parityAction c 0 σ) := by
  simp [tick, h, hph, hr]

theorem tick_layoutBuilt_zero (h : p.rst = false) (hph : σ.ph = .layoutBuilt) (hr : σ.r = 0) (hop : σ.op = .enc) :
    tick c p σ = some (finalizeEnc c σ) := by
  simp [tick, h, hph, hr, hop]

theorem tick_parityBits (h : p.rst = false) (hph : σ.ph = .parityBits) (hk : σ.k + 1 < σ.r) :
    tick c p σ = some (parityAction c (σ.k + 1) σ) := by
  simp [tick, h, hph, hk]

theorem tick_parityBits_last (h : p.rst = false) (hph : σ.ph = .parityBits) (hk : σ.k + 1 = σ.r) :
    tick c p σ = some (finalize c σ) := by
  simp [tick, h, hph, hk]

/-- Everything one step of the block can do. -/
theorem tick_cases (h : tick c p σ = some σ') :
    (p.rst = true ∧ σ' = Regs.reset) ∨
    (p.rst = false ∧
      ((σ.ph = .idle ∨ σ.ph = .finalized) ∧
        (p.cmdValid = false ∧ σ' = σ ∨ p.cmdValid = true ∧ σ' = accept c p.cmdOp p.cmdLen p.cmdBits) ∨
      σ.ph = .inputReceived ∧
        ((∃ cond, refusal c σ.op σ.len = some cond ∧ σ' = refuse c cond σ) ∨
          refusal c σ.op σ.len = none ∧ σ' = sizing c σ) ∨
      σ.ph = .sizingComputed ∧ σ' = layout c σ ∨
      σ.ph = .layoutBuilt ∧
        (0 < σ.r ∧ σ' = parityAction c 0 σ ∨ σ.r = 0 ∧ σ.op = .enc ∧ σ' = finalizeEnc c σ) ∨
      σ.ph = .parityBits ∧
        (σ.k + 1 < σ.r ∧ σ' = parityAction c (σ.k + 1) σ ∨ σ.k + 1 = σ.r ∧ σ' = finalize c σ))) := by
  cases hrst : p.rst
  · right
    refine ⟨rfl, ?_⟩
    cases hph : σ.ph
    · cases hv : p.cmdValid
      · rw [tick_hold hrst hv (.inl hph)] at h; simp_all
      · rw [tick_accept hrst hv (.inl hph)] at h; simp_all
    · cases hr : refusal c σ.op σ.len
      · rw [tick_inputReceived_valid hrst hph hr] at h; simp_all
      · rw [tick_inputReceived_invalid hrst hph hr] at h; simp_all
    · rw [tick_sizingComputed hrst hph] at h; simp_all
    · rcases Nat.eq_zero_or_pos σ.r with hr | hr
      · cases hop : σ.op
        · rw [tick_layoutBuilt_zero hrst hph hr hop] at h; simp_all
        · simp [tick, hrst, hph, hr, hop] at h
      · rw [tick_layoutBuilt hrst hph hr] at h; simp_all
    · rcases Nat.lt_trichotomy (σ.k + 1) σ.r with hk | hk | hk
      · rw [tick_parityBits hrst hph hk] at h; simp_all
      · rw [tick_parityBits_last hrst hph hk] at h; simp_all
      · simp [tick, hrst, hph, show ¬ σ.k + 1 < σ.r by omega, show ¬ σ.k + 1 = σ.r by omega] at h
    · cases hv : p.cmdValid
      · rw [tick_hold hrst hv (.inr hph)] at h; simp_all
      · rw [tick_accept hrst hv (.inr hph)] at h; simp_all
  · left
    rw [tick_rst hrst] at h; simp_all

/-- `clock` changes the registers only, as `tick` says. -/
theorem clock_next {s t : State} (h : clock p s = .next t) :
    ∃ τ, tick s.params p s.regs = some τ ∧ t = { s with regs := τ } := by
  unfold clock at h
  split at h
  · exact ⟨_, ‹_›, by simpa using h.symm⟩
  · cases h

theorem clock_eq {s : State} {τ : Regs} (h : tick s.params p s.regs = some τ) :
    clock p s = .next { s with regs := τ } := by simp [clock, h]

theorem not_busy_iff : busy σ = false ↔ σ.ph = .idle ∨ σ.ph = .finalized := by
  unfold busy; cases σ.ph <;> simp

/-- A command presented to a block that is not busy runs to its end. -/
theorem perform_not_busy {s : State} {i : Instr} (h : busy s.regs = false) :
    perform i s = .next { s with regs := operation s.params (instrOp i) (instrLen i) (instrBits i) } := by
  simp [perform, h]

theorem exec_eq_perform (i : Instr) (s : State) : exec i s = perform i s := by cases i <;> rfl

/-- Everything an instruction can do when it answers a next state. -/
theorem exec_next {s t : State} {i : Instr} (h : exec i s = .next t) :
    (busy s.regs = false ∧
      t = { s with regs := operation s.params (instrOp i) (instrLen i) (instrBits i) }) ∨
    (busy s.regs = true ∧ ∃ τ, tick s.params (presentPins i) s.regs = some τ ∧ t = { s with regs := τ }) := by
  rw [exec_eq_perform] at h
  cases hb : busy s.regs
  · rw [perform_not_busy hb] at h
    exact .inl ⟨rfl, by simpa using h.symm⟩
  · simp only [perform, hb, if_true] at h
    exact .inr ⟨rfl, clock_next h⟩

/-- Everything a step can do when it answers a next state. -/
theorem step_next {s t : State} (h : step s = .next t) :
    (s.host = [] ∧ ∃ τ, tick s.params quietPins s.regs = some τ ∧ t = { s with regs := τ }) ∨
    (∃ q rest τ, s.host = .edge q :: rest ∧ pinsOnPort s.params q = true ∧ tick s.params q s.regs = some τ ∧
      t = { s with host := rest, regs := τ }) ∨
    (∃ f rest τ, s.host = .command f :: rest ∧ busy s.regs = true ∧ tick s.params quietPins s.regs = some τ ∧
      t = { s with regs := τ }) ∨
    (∃ f rest i, s.host = .command f :: rest ∧ busy s.regs = false ∧ readCommand s.params s.regs f = .ok i ∧
      t = { s with host := rest,
                   regs := operation s.params (instrOp i) (instrLen i) (instrBits i) }) := by
  unfold step at h
  split at h
  · rename_i hh
    exact .inl ⟨hh, clock_next h⟩
  · rename_i q rest hh
    unfold stepEdge at h
    split at h
    · obtain ⟨τ, h1, h2⟩ := clock_next h
      exact .inr (.inl ⟨q, rest, τ, hh, ‹_›, h1, h2⟩)
    · cases h
  · rename_i f rest hh
    unfold stepCommand at h
    cases hb : busy s.regs
    · simp only [hb, Bool.false_eq_true, if_false] at h
      split at h
      · rename_i i hi
        rw [exec_eq_perform, perform_not_busy (s := { s with host := rest }) hb] at h
        exact .inr (.inr (.inr ⟨f, rest, i, hh, rfl, hi, by simpa using h.symm⟩))
      · cases h
    · simp only [hb, if_true] at h
      obtain ⟨τ, h1, h2⟩ := clock_next h
      exact .inr (.inr (.inl ⟨f, rest, τ, hh, rfl, h1, h2⟩))

end Sys2Proof.Machine
end

