-- ==== Sys2Proof/Laws/Units.lean ====
section
/-! SUPPORT. One lemma for each unit of the encoder and the decoder that says what it computes, bit by bit. -/

namespace Sys2Proof.Machine

/-! ### XOR -/

@[simp] theorem xorAll_nil : xorAll [] = false := rfl

@[simp] theorem xorAll_cons (b : Bool) (bs : List Bool) : xorAll (b :: bs) = (b ^^ xorAll bs) := rfl

theorem xorAll_append (as bs : List Bool) : xorAll (as ++ bs) = (xorAll as ^^ xorAll bs) := by
  induction as with
  | nil => simp
  | cons a as ih => simp [ih]

/-- The XOR of a list of bits does not depend on their order (`40_encoder.md` R100). -/
theorem xorAll_perm {as bs : List Bool} (h : as.Perm bs) : xorAll as = xorAll bs := by
  induction h with
  | nil => rfl
  | cons a _ ih => simp [ih]
  | swap a b l => cases a <;> cases b <;> simp
  | trans _ _ ih₁ ih₂ => exact ih₁.trans ih₂

/-- XOR is linear. -/
theorem xorAll_map_xor {α : Type} (l : List α) (f g : α → Bool) :
    xorAll (l.map fun a => f a ^^ g a) = (xorAll (l.map f) ^^ xorAll (l.map g)) := by
  induction l with
  | nil => rfl
  | cons a l ih =>
    simp only [List.map_cons, xorAll_cons, ih]
    cases f a <;> cases g a <;> cases xorAll (l.map f) <;> cases xorAll (l.map g) <;> rfl

/-- The XOR of the bits that pass a test is the XOR of all bits with the others taken as 0. -/
theorem xorAll_map_filter {α : Type} (l : List α) (p : α → Bool) (f : α → Bool) :
    xorAll ((l.filter p).map f) = xorAll (l.map fun a => p a && f a) := by
  induction l with
  | nil => rfl
  | cons a l ih => cases h : p a <;> simp [h, ih]

/-- A parity depends only on the bits at the covered positions. -/
theorem coverParity_congr {b₁ b₂ n p : Nat} (h : ∀ i ∈ cover p n, memRead b₁ i = memRead b₂ i) :
    coverParity b₁ n p = coverParity b₂ n p := by
  unfold coverParity coverValues
  rw [List.map_congr_left h]

theorem coverValues_congr {b₁ b₂ n p : Nat} (h : ∀ i ∈ cover p n, memRead b₁ i = memRead b₂ i) :
    coverValues b₁ n p = coverValues b₂ n p := List.map_congr_left h

theorem memRead_xor (x y i : Nat) : memRead (x ^^^ y) i = (memRead x i ^^ memRead y i) := by
  simp [memRead, Nat.testBit_xor]

/-- A parity is linear in the buffer. -/
theorem coverParity_xor (x y n p : Nat) :
    coverParity (x ^^^ y) n p = (coverParity x n p ^^ coverParity y n p) := by
  unfold coverParity coverValues
  rw [← xorAll_map_xor]
  exact congrArg xorAll (List.map_congr_left fun i _ => memRead_xor x y i)

/-! ### PARITY and CHECK -/

/-- The parity of another parity position does not see position `2^j` (`00_scope.md` R12). -/
theorem coverParity_memWrite_ne {buf n j k : Nat} {v : Bool} (h : j ≠ k) :
    coverParity (memWrite buf (2 ^ j) v) n (2 ^ k) = coverParity buf n (2 ^ k) := by
  apply coverParity_congr
  intro i hi
  obtain ⟨⟨h1, -⟩, hb⟩ := mem_cover.1 hi
  rw [memRead_memWrite Nat.one_le_two_pow h1, if_neg]
  rintro rfl
  rw [Nat.testBit_two_pow] at hb
  exact h (by simpa using hb)

/-- What `PARITY(0)`, ..., `PARITY(r-1)` leave: the parity of the layout at every parity position below `2^r`, the
layout everywhere else, and the same parities in `chk`. -/
theorem parityUnits_spec (n r buf chk : Nat) :
    let st := (List.range r).foldl (fun st k => parityUnit n k st) (buf, chk)
    (∀ k, coverParity st.1 n (2 ^ k) =
      if k < r then (coverParity (memWrite buf (2 ^ k) (coverParity buf n (2 ^ k))) n (2 ^ k))
      else coverParity buf n (2 ^ k)) ∧
    (∀ i, 1 ≤ i → memRead st.1 i =
      if isParityPos i = true ∧ i < 2 ^ r then coverParity buf n i else memRead buf i) ∧
    (∀ j, st.2.testBit j = if j < r then coverParity buf n (2 ^ j) else chk.testBit j) := by
  induction r with
  | zero =>
    refine ⟨by simp, ?_, by simp⟩
    intro i hi
    rw [if_neg (by simp; omega)]; rfl
  | succ r ih =>
    obtain ⟨hp, hb, hc⟩ := ih
    simp only [List.range_succ, List.foldl_append, List.foldl_cons, List.foldl_nil]
    generalize (List.range r).foldl (fun st k => parityUnit n k st) (buf, chk) = st at hp hb hc
    have hr : coverParity st.1 n (2 ^ r) = coverParity buf n (2 ^ r) := by
      rw [hp r, if_neg (lt_irrefl r)]
    refine ⟨?_, ?_, ?_⟩
    · intro k
      by_cases hkr : k = r
      · subst hkr
        simp only [parityUnit, parityBuf, if_pos (Nat.lt_succ_self k), hr]
        apply coverParity_congr
        intro i hi
        obtain ⟨⟨h1, -⟩, hbit⟩ := mem_cover.1 hi
        rw [memRead_memWrite Nat.one_le_two_pow h1, memRead_memWrite Nat.one_le_two_pow h1]
        split
        · rfl
        · rename_i hne
          rw [hb i h1, if_neg]
          rintro ⟨hpar, -⟩
          obtain ⟨j, rfl⟩ := (isParityPos_iff i).1 hpar
          rw [Nat.testBit_two_pow] at hbit
          exact hne (by simp at hbit; rw [hbit])
      · simp only [parityUnit, parityBuf, coverParity_memWrite_ne (Ne.symm hkr), hp k]
        have : k < r + 1 ↔ k < r := by omega
        simp [this]
    · intro i hi
      simp only [parityUnit, parityBuf]
      rw [memRead_memWrite Nat.one_le_two_pow hi]
      by_cases h : i = 2 ^ r
      · subst h
        rw [if_pos rfl, hr, if_pos ⟨isParityPos_two_pow r, by rw [Nat.pow_succ]; have := Nat.two_pow_pos r; omega⟩]
      · rw [if_neg h, hb i hi]
        have : (isParityPos i = true ∧ i < 2 ^ (r + 1)) ↔ (isParityPos i = true ∧ i < 2 ^ r) := by
          constructor
          · rintro ⟨hpar, hlt⟩
            obtain ⟨j, rfl⟩ := (isParityPos_iff i).1 hpar
            have hj : j < r + 1 := (Nat.pow_lt_pow_iff_right (by decide)).1 hlt
            have : j ≠ r := fun hjr => h (by rw [hjr])
            exact ⟨hpar, (Nat.pow_lt_pow_iff_right (by decide)).2 (by omega)⟩
          · rintro ⟨hpar, hlt⟩
            exact ⟨hpar, by rw [Nat.pow_succ]; omega⟩
        simp only [this]
    · intro j
      simp only [parityUnit, testBit_setBit, hc j, hr]
      by_cases h : j = r
      · subst h; simp
      · have : j < r + 1 ↔ j < r := by omega
        simp [h, this]

/-- The part of `parityUnits_spec` about the buffer alone, for the encoder's own buffer. -/
theorem encodeBuffers_read (d : BitString) {i : Nat} (hi : 1 ≤ i) :
    memRead (encodeBuffers d).1 i =
      if isParityPos i = true ∧ i < 2 ^ redundancy d.length
      then coverParity (place (ofBits d) (d.length + redundancy d.length)) (d.length + redundancy d.length) i
      else memRead (place (ofBits d) (d.length + redundancy d.length)) i :=
  (parityUnits_spec _ _ _ _).2.1 i hi

theorem encodeBuffers_chk (d : BitString) (j : Nat) :
    (encodeBuffers d).2.testBit j =
      if j < redundancy d.length
      then coverParity (place (ofBits d) (d.length + redundancy d.length)) (d.length + redundancy d.length) (2 ^ j)
      else false := by
  have := (parityUnits_spec (d.length + redundancy d.length) (redundancy d.length)
    (place (ofBits d) (d.length + redundancy d.length)) 0).2.2 j
  rw [Nat.zero_testBit] at this
  exact this

/-- What `CHECK(0)`, ..., `CHECK(r-1)` leave in `chk`. -/
theorem checkUnits_spec (buf n r chk j : Nat) :
    ((List.range r).foldl (fun chk k => checkUnit buf n k chk) chk).testBit j =
      if j < r then coverParity buf n (2 ^ j) else chk.testBit j := by
  induction r with
  | zero => simp
  | succ r ih =>
    rw [List.range_succ, List.foldl_append, List.foldl_cons, List.foldl_nil, checkUnit, testBit_setBit, ih]
    by_cases h : j = r
    · subst h; simp
    · have : j < r + 1 ↔ j < r := by omega
      simp only [if_neg h, this]

/-! ### PLACE -/

/-- What the walk of `PLACE` leaves when it starts at position `a` with `j` data bits used. -/
theorem placeWalk_spec (inb : Nat) (len : Nat) : ∀ (a j buf : Nat), 1 ≤ a → ∀ i, 1 ≤ i →
    memRead (placeWalk inb (List.range' a len) j buf) i =
      if a ≤ i ∧ i < a + len then
        (if isParityPos i then false
         else inb.testBit (j + ((List.range' a (i - a)).filter fun q => !isParityPos q).length))
      else memRead buf i := by
  induction len with
  | zero => intro a j buf _ i _; rw [if_neg (by omega)]; rfl
  | succ len ih =>
    intro a j buf ha i hi
    have hsplit : i = a ∨ (a + 1 ≤ i ∧ i < a + 1 + len) ∨ ¬ (a ≤ i ∧ i < a + (len + 1)) := by omega
    have hcount : ∀ i, a + 1 ≤ i → List.range' a (i - a) = a :: List.range' (a + 1) (i - (a + 1)) := by
      intro i h
      obtain ⟨m, rfl⟩ : ∃ m, i = a + 1 + m := ⟨i - (a + 1), by omega⟩
      rw [show a + 1 + m - a = m + 1 by omega, List.range'_succ]; simp
    rw [List.range'_succ]
    simp only [placeWalk]
    cases hpar : isParityPos a
    · simp only [Bool.false_eq_true, if_false]
      rw [ih (a + 1) _ _ (by omega) i hi]
      rcases hsplit with rfl | h | h
      · rw [if_neg (by omega), if_pos (by omega), memRead_memWrite hi hi]; simp [hpar]
      · simp only [if_pos h, if_pos (show a ≤ i ∧ i < a + (len + 1) by omega), hcount i h.1]
        simp [hpar, Nat.add_assoc, Nat.add_comm 1]
      · rw [if_neg (by omega), if_neg h, memRead_memWrite ha hi, if_neg (by omega)]
    · simp only [if_true]
      rw [ih (a + 1) _ _ (by omega) i hi]
      rcases hsplit with rfl | h | h
      · rw [if_neg (by omega), if_pos (by omega), memRead_memWrite hi hi]; simp [hpar]
      · simp only [if_pos h, if_pos (show a ≤ i ∧ i < a + (len + 1) by omega), hcount i h.1]
        simp [hpar]
      · rw [if_neg (by omega), if_neg h, memRead_memWrite ha hi, if_neg (by omega)]

/-- What `PLACE` leaves at each position of `1..n`: 0 at a parity position, at a data position the data bit whose
index is the number of data positions before it; and 0 beyond `n`. -/
theorem memRead_place (inb n : Nat) {i : Nat} (hi : 1 ≤ i) :
    memRead (place inb n) i =
      if i ≤ n then (if isParityPos i then false else inb.testBit (dataPositions (i - 1)).length) else false := by
  have h := placeWalk_spec inb n 1 0 0 (le_refl 1) i hi
  rw [place, positions, h]
  have : (1 ≤ i ∧ i < 1 + n) ↔ i ≤ n := by omega
  simp only [this, Nat.zero_add]
  simp [dataPositions, positions, memRead]

/-- The layout is 0 beyond index `n`. -/
theorem place_lt (inb n : Nat) : place inb n < 2 ^ n := by
  apply Nat.lt_pow_two_of_testBit
  intro j hj
  have := memRead_place inb n (i := j + 1) (by omega)
  rw [if_neg (by omega)] at this
  simpa [memRead] using this

/-! ### SYNDROME, CORRECT, EXTRACT -/

/-- The sum of the failed positions, with one more check. -/
theorem syndrome_succ (chk r : Nat) :
    syndrome chk (r + 1) = syndrome chk r + if chk.testBit r then 2 ^ r else 0 := by
  unfold syndrome failedPositions
  rw [List.range_succ, List.filter_append, List.map_append, List.sum_append]
  cases h : chk.testBit r <;> simp [h]

/-- What `CORRECT` leaves at each position. -/
theorem memRead_correct (buf : Nat) (loc : Located) {i : Nat} (hi : 1 ≤ i) (hs : ∀ s, loc = .correct s → 1 ≤ s) :
    memRead (correct buf loc) i = (memRead buf i ^^ decide (loc = .correct i)) := by
  cases loc with
  | noError => simp [correct]
  | uncorrectable s => simp [correct]
  | correct s =>
    rw [correct, memRead_memWrite (hs s rfl) hi]
    by_cases h : i = s
    · subst h; simp
    · simp [h, Ne.symm h]

/-- `CORRECT` writes no bit beyond the word. -/
theorem correct_lt {buf n s : Nat} (hb : buf < 2 ^ n) : correct buf (locate s n) < 2 ^ n := by
  unfold locate
  split
  · exact hb
  · split
    · exact memWrite_lt hb (by omega) (by assumption)
    · exact hb

/-- Of a layout's parities each reads only what no other one writes, so `PARITY(0)`, ..., `PARITY(m-1)` leave every
position that is no parity position, or not below `2^m`. -/
theorem parityUnits_read (n m : Nat) (buf chk : Nat) (i : Nat) (hi : 1 ≤ i)
    (hnp : isParityPos i = false ∨ 2 ^ m ≤ i) :
    memRead ((List.range m).foldl (fun st k => parityUnit n k st) (buf, chk)).1 i = memRead buf i := by
  rw [(parityUnits_spec n m buf chk).2.1 i hi, if_neg]
  rintro ⟨a, b⟩
  rcases hnp with h | h
  · simp_all
  · omega

/-- The parity event of index `m` is the same before and after the parities with smaller indices. -/
theorem parityEvent_stable (n m buf chk : Nat) :
    parityEvent ((List.range m).foldl (fun st k => parityUnit n k st) (buf, chk)).1 n m = parityEvent buf n m := by
  have : ∀ i ∈ cover (2 ^ m) n,
      memRead ((List.range m).foldl (fun st k => parityUnit n k st) (buf, chk)).1 i = memRead buf i := by
    intro i hi
    obtain ⟨⟨a, _⟩, hb⟩ := mem_cover.1 hi
    exact parityUnits_read _ _ _ _ _ a (.inr (Nat.ge_two_pow_of_testBit hb))
  unfold parityEvent
  rw [coverValues_congr this, coverParity_congr this]

@[simp] theorem extract_length (cc n : Nat) : (extract cc n).length = (dataPositions n).length := by simp [extract]

end Sys2Proof.Machine
end

