-- ==== Sys2Proof/Laws/Operation.lean ====
section
/-! SUPPORT. A whole operation: what the parity phase leaves, which operands are valid, what the port carries, and how steps
compose. -/

namespace Sys2Proof.Machine

variable {c : Params} {σ : Regs}

/-- What the parity phase of an encode leaves after the indices `0..m`. -/
theorem parityActions_enc (c : Params) (σ : Regs) (hop : σ.op = .enc) (m : Nat) :
    (List.range (m + 1)).foldl (fun τ j => parityAction c j τ) σ =
      { σ with ph := .parityBits, k := m
               buf := ((List.range (m + 1)).foldl (fun st k => parityUnit σ.n k st) (σ.buf, σ.chk)).1
               chk := ((List.range (m + 1)).foldl (fun st k => parityUnit σ.n k st) (σ.buf, σ.chk)).2
               trace := if c.traceEn then σ.trace ++ (List.range (m + 1)).map (parityEvent σ.buf σ.n)
                        else σ.trace } := by
  induction m with
  | zero =>
    simp [parityAction, hop, emit]
    cases c.traceEn <;> simp
  | succ m ih =>
    rw [List.range_succ, List.foldl_append, ih]
    simp only [List.foldl_cons, List.foldl_nil, parityAction, hop]
    rw [parityEvent_stable]
    conv => rhs; rw [List.foldl_append]; simp only [List.foldl_cons, List.foldl_nil]
    unfold emit
    cases c.traceEn
    · simp
    · simp [List.range_succ]

/-- What the parity phase of a decode leaves after the indices `0..m`. -/
theorem parityActions_dec (c : Params) (σ : Regs) (hop : σ.op = .dec) (m : Nat) :
    (List.range (m + 1)).foldl (fun τ j => parityAction c j τ) σ =
      { σ with ph := .parityBits, k := m
               chk := (List.range (m + 1)).foldl (fun st k => checkUnit σ.buf σ.n k st) σ.chk
               trace := if c.traceEn then σ.trace ++ (List.range (m + 1)).map (parityEvent σ.buf σ.n)
                        else σ.trace } := by
  induction m with
  | zero =>
    simp [parityAction, hop, emit]
    cases c.traceEn <;> simp
  | succ m ih =>
    rw [List.range_succ, List.foldl_append, ih]
    simp only [List.foldl_cons, List.foldl_nil, parityAction, hop]
    conv => rhs; rw [List.foldl_append]; simp only [List.foldl_cons, List.foldl_nil]
    unfold emit
    cases c.traceEn
    · simp
    · simp [List.range_succ]

/-- A parity action enters `ParityBits(j)` and leaves the sizes, the operation and `done`. -/
theorem parityAction_frame (j : Nat) (σ : Regs) :
    (parityAction c j σ).ph = .parityBits ∧ (parityAction c j σ).k = j ∧ (parityAction c j σ).op = σ.op ∧
      (parityAction c j σ).r = σ.r ∧ (parityAction c j σ).n = σ.n ∧ (parityAction c j σ).done = σ.done := by
  cases h : σ.op <;> simp [parityAction, h]

theorem fitsCapacity_mono {a b : Nat} (h : fitsCapacity c b = true) (hab : a ≤ b) : fitsCapacity c a = true := by
  unfold fitsCapacity at *
  split at h <;> simp_all
  omega

theorem heldLen_le (c : Params) (len : Nat) : heldLen c len ≤ len := by unfold heldLen; split <;> omega

/-- An operand that fits the instance is held whole. -/
theorem heldLen_of_fits {len : Nat} (h : fitsCapacity c len = true) : heldLen c len = len := by
  unfold fitsCapacity heldLen at *
  split <;> simp_all

/-- The operands that T3 does not refuse (`42_sequencer.md` R154). -/
theorem refusal_none_iff {op : Op} {len : Nat} :
    refusal c op len = none ↔
      (op = .enc ∧ fitsCapacity c (len + redundancy len) = true) ∨
      (op = .dec ∧ len ≠ 0 ∧ fitsCapacity c len = true) := by
  unfold refusal
  cases op
  · simp
  · by_cases h : len = 0 <;> simp [h]

theorem refusal_some_cases {op : Op} {len : Nat} {cond : Condition} (h : refusal c op len = some cond) :
    (cond = .emptyInput ∧ op = .dec ∧ len = 0) ∨ cond = .lengthOverflow := by
  unfold refusal at h
  cases op
  · simp only at h
    split at h <;> simp at h
    exact .inr h.symm
  · simp only at h
    split at h
    · simp at h; exact .inl ⟨h.symm, rfl, by assumption⟩
    · split at h <;> simp at h
      exact .inr h.symm

/-- `FLIP` keeps the length of the string (`30_encoding.md` R80). -/
@[simp] theorem flip_length (d : BitString) (q : Nat) : (flip d q).length = d.length := by
  unfold flip injectAt
  split
  · rfl
  · by_cases h : q - 1 < d.length <;> simp [h]

/-- Everything `FLIP` does: it inverts the symbol at position `q`, where there is one. -/
theorem flip_getD (d : BitString) (q j : Nat) :
    (flip d q).getD j false = (d.getD j false ^^ decide (q = j + 1 ∧ j < d.length)) := by
  unfold flip injectAt
  split
  · have : ¬ (q = j + 1 ∧ j < d.length) := by omega
    simp [this]
  · by_cases h : q - 1 < d.length
    · by_cases hj : q = j + 1
      · subst hj
        simp only [Nat.add_sub_cancel] at h ⊢
        simp [h, List.getD]
      · have hne : q - 1 ≠ j := by omega
        simp [h, hj, hne, List.getD]
    · have : ¬ (q = j + 1 ∧ j < d.length) := by omega
      simp [h, this]

/-- After a list of flips a symbol is inverted once for each time its position is listed. -/
theorem foldl_flip_getD (qs : List Nat) (d : BitString) (j : Nat) :
    (qs.foldl flip d).getD j false =
      (d.getD j false ^^ decide (j < d.length ∧ qs.count (j + 1) % 2 = 1)) := by
  induction qs generalizing d with
  | nil => simp
  | cons q qs ih =>
    rw [List.foldl_cons, ih, flip_getD, flip_length, List.count_cons, Bool.xor_assoc]
    congr 1
    by_cases hj : j < d.length <;> by_cases hq : q = j + 1 <;> simp [hj, hq]
    rcases Nat.mod_two_eq_zero_or_one (qs.count (j + 1)) with h | h <;> simp [h, Nat.add_mod]

theorem foldl_flip_length (qs : List Nat) (d : BitString) : (qs.foldl flip d).length = d.length := by
  induction qs generalizing d with
  | nil => rfl
  | cons q qs ih => simp [ih]

@[simp] theorem codewordString_length (σ : Regs) : (codewordString σ).length = σ.resCwLen := by simp [codewordString]

@[simp] theorem dataString_length (σ : Regs) : (dataString σ).length = σ.resDataLen := by simp [dataString]

/-- The port carries a string that fits the instance (`10_state.md` R42). -/
theorem readString_of_fits {op : Op} {d : BitString} (h : fitsCapacity c d.length = true) :
    readString c op d = .ok (instrOfFields op d.length (ofBits d)) := by
  have hlt := ofBits_lt d
  have hw : (instrOfFields op d.length (ofBits d)).wellFormed c = true := by
    cases hn : c.nMax with
    | none => cases op <;> simp [Instr.wellFormed, lenOnPort, bitsOnPort, hn]
    | some nMax =>
      have hle : d.length ≤ nMax := by simpa [fitsCapacity, hn] using h
      have hlen : d.length < 2 ^ lw nMax := lt_of_le_of_lt hle (lt_two_pow_bitlen nMax)
      have hbits : ofBits d < 2 ^ nMax := lt_of_lt_of_le hlt (Nat.pow_le_pow_right (by decide) hle)
      cases op <;> simp [Instr.wellFormed, instrOfFields, instrLen, instrBits, lenOnPort, bitsOnPort, hn, hlen, hbits]
  simp [readString, readFields, hw]

theorem ticks_append (ps qs : List Pins) (σ : Regs) :
    ticks c (ps ++ qs) σ = (ticks c ps σ).bind (ticks c qs) := by
  induction ps generalizing σ with
  | nil => rfl
  | cons p ps ih =>
    simp only [List.cons_append, ticks]
    cases tick c p σ <;> simp [ih]

/-- A run goes on after a step that answers a next state. -/
theorem run_succ_of_next {M : Host.Core} (k : Nat) {s t : M.State} (h : M.step s = .next t) :
    M.run (k + 1) s = M.run k t := by
  simp [Host.Core.run, h]

end Sys2Proof.Machine
end

