-- ==== Sys2Proof/Laws/PerInstr.lean ====
section
/-! SUPPORT. A statement about each instruction as syntax: its word's bit 0 is its opcode (`30_encoding.md` R72,
R73). -/

namespace Sys2Proof.Laws.OpcodeBit

open Sys2Proof.Machine

/-- In every instance that has a word format, bit 0 of the command word is the opcode. -/
def Statement (i : Instr) : Prop :=
  ∀ (c : Params) (w : Nat), encode c i = some w → w % 2 = opCode (instrOp i)

theorem word_mod_two {c : Params} {i : Instr} {w : Nat} (h : encode c i = some w) : w % 2 = opCode (instrOp i) % 2 := by
  unfold encode at h
  split at h
  · cases h
  · rename_i nMax _
    simp only [Option.some.injEq] at h
    rw [← h, Nat.pow_add, show instrBits i * (2 ^ 1 * 2 ^ Machine.lw nMax) = 2 * (instrBits i * 2 ^ Machine.lw nMax) by ring]
    omega

theorem enc (len bits : Nat) : Statement (.enc len bits) := fun _ _ h => word_mod_two h

theorem dec (len bits : Nat) : Statement (.dec len bits) := fun _ _ h => word_mod_two h

end Sys2Proof.Laws.OpcodeBit
end

