-- ==== Sys2Proof/Machine/Assembler.lean ====
section
/-! DEFINITION. Program text (`30_encoding.md` R79, R80): the lines `ENC`, `DEC` and the two host actions `FLIP` and
`CONV`, read into the host's commands. The converter is the environment's, not the block's (`00_scope.md` R15); the
block's step uses nothing of this file. Assumption log 11; the layout of a line and the numeral of `FLIP` are assumption
log 13. -/

namespace Sys2Proof.Machine

/-! ### The environment's `BinaryConverter` (`00_scope.md` R15) -/

/-- The formats; an unknown one "falls back to the Binary rule". -/
inductive Format where
  | binary
  | decimal
  | hexadecimal
  | ascii
  | plainText
  | unknown
  deriving DecidableEq, Repr

/-- What `convert` answers. -/
inductive Converted where
  | ok (d : BitString)
  /-- the failure `InvalidNumericInput`: the binary string is empty -/
  | invalidNumericInput
  /-- the spec gives no answer (N14 of `91_not_in_source.md`, U13: `refuse`) -/
  | unspecified
  deriving DecidableEq, Repr

/-- "strip every character that is not `'0'` or `'1'`". -/
def stripToBits : List Char → BitString
  | [] => []
  | ch :: cs => if ch = '0' then false :: stripToBits cs else if ch = '1' then true :: stripToBits cs else stripToBits cs

/-- The value of a digit of either base; hexadecimal digits in either case. -/
def digitValue (ch : Char) : Nat :=
  if '0'.toNat ≤ ch.toNat ∧ ch.toNat ≤ '9'.toNat then ch.toNat - '0'.toNat
  else if 'a'.toNat ≤ ch.toNat ∧ ch.toNat ≤ 'f'.toNat then ch.toNat - 'a'.toNat + 10
  else if 'A'.toNat ≤ ch.toNat ∧ ch.toNat ≤ 'F'.toNat then ch.toNat - 'A'.toNat + 10
  else 16

/-- A run of digits, most significant first, after the value read so far; `none` at any other character. -/
def digitsValue (base : Nat) : List Char → Nat → Option Nat
  | [], v => some v
  | ch :: cs, v => if digitValue ch < base then digitsValue base cs (v * base + digitValue ch) else none

/-- The minimal binary representation, most significant digit first. -/
def minimalBinary (v : Nat) : BitString := (toBits (bitlen v) v).reverse

/-- The characters that make a numeral's treatment unspecified: signs and spaces. -/
def isOpenNumeral (cs : List Char) : Bool := cs.any fun ch => ch == '-' || ch == '+' || ch.isWhitespace

/-- The numeric rule. The spec does not say what becomes of the empty text, of 0, of signs and of spaces. -/
def convertNumber (base : Nat) (cs : List Char) : Converted :=
  if cs = [] then .unspecified
  else
    match digitsValue base cs 0 with
    | some 0 => .unspecified
    | some (v + 1) => .ok (minimalBinary (v + 1))
    | none => if isOpenNumeral cs then .unspecified else .invalidNumericInput

/-- "strip an optional leading `0x`/`0X`". -/
def stripHexPrefix : List Char → List Char
  | '0' :: 'x' :: cs => cs
  | '0' :: 'X' :: cs => cs
  | cs => cs

/-- One 8-bit zero-padded group for each character. The spec does not say what becomes of code points above 255. -/
def convertText (cs : List Char) : Converted :=
  if cs.all fun ch => ch.toNat < 256 then .ok (cs.flatMap fun ch => (toBits 8 ch.toNat).reverse) else .unspecified

/-- `convert(input, format)`. -/
def convert (fmt : Format) (cs : List Char) : Converted :=
  match fmt with
  | .binary => .ok (stripToBits cs)
  | .decimal => convertNumber 10 cs
  | .hexadecimal => convertNumber 16 (stripHexPrefix cs)
  | .ascii => convertText cs
  | .plainText => convertText cs
  | .unknown => .ok (stripToBits cs)

/-! ### Lines -/

/-- What one line asks of the host. -/
inductive Line where
  | command (op : Op) (d : BitString)
  | onCodeword (op : Op)
  | onData (op : Op)
  | flip (q : Nat)
  | conv (d : BitString)
  deriving DecidableEq, Repr

/-- A run of the characters `0` and `1`, first symbol first. -/
def parseBits : List Char → Option BitString
  | [] => some []
  | '0' :: cs => (parseBits cs).map (false :: ·)
  | '1' :: cs => (parseBits cs).map (true :: ·)
  | _ :: _ => none

/-- The operand of `ENC` and `DEC`: `$cw`, `$data`, `""` for the empty string, or a run of symbols. -/
def parseOperand (op : Op) (cs : List Char) : Option Line :=
  if cs = ['$', 'c', 'w'] then some (.onCodeword op)
  else if cs = ['$', 'd', 'a', 't', 'a'] then some (.onData op)
  else if cs = ['"', '"'] then some (.command op [])
  else if cs = [] then none
  else (parseBits cs).map (.command op)

/-- A format word, "in either spelling" (C10 of `90_conflicts.md`). -/
def parseFormat (cs : List Char) : Format :=
  if cs = "binary".toList ∨ cs = "Binary".toList then .binary
  else if cs = "decimal".toList ∨ cs = "Decimal".toList then .decimal
  else if cs = "hexadecimal".toList ∨ cs = "Hexadecimal".toList then .hexadecimal
  else if cs = "ascii".toList ∨ cs = "ASCII".toList then .ascii
  else if cs = "plaintext".toList ∨ cs = "PlainText".toList then .plainText
  else .unknown

/-- `CONV <format> <text>`: `$data` becomes the converter's binary string, empty after `InvalidNumericInput`. -/
def parseConv (cs : List Char) : Option Line :=
  match convert (parseFormat (cs.takeWhile (· != ' '))) ((cs.dropWhile (· != ' ')).drop 1) with
  | .ok d => some (.conv d)
  | .invalidNumericInput => some (.conv [])
  | .unspecified => none

/-- The position of `FLIP`. How it is written is left open by the spec and is the model's choice (assumption log 13): decimal
digits, after a minus sign or none. A negative position is read as 0: no `q < 1` changes anything (`30_encoding.md` R80). -/
def parsePosition : List Char → Option Nat
  | [] => none
  | ['-'] => none
  | '-' :: cs => (digitsValue 10 cs 0).map fun _ => 0
  | cs => digitsValue 10 cs 0

/-- One line. What follows a `;` and the spaces before it are no part of it. The rest of the layout is left open by the
spec and is the model's choice (assumption log 13): a mnemonic stands at the line's first column in capitals with at
least one space after it, the position of `FLIP` is a decimal numeral (`parsePosition`), and a line that is blank or
holds only a comment is `none`, as is any other line that cannot be read. -/
def parseLine (line : List Char) : Option Line :=
  match ((line.takeWhile (· != ';')).reverse.dropWhile (· == ' ')).reverse with
  | 'E' :: 'N' :: 'C' :: ' ' :: cs => parseOperand .enc (cs.dropWhile (· == ' '))
  | 'D' :: 'E' :: 'C' :: ' ' :: cs => parseOperand .dec (cs.dropWhile (· == ' '))
  | 'F' :: 'L' :: 'I' :: 'P' :: ' ' :: cs => (parsePosition cs).map .flip
  | 'C' :: 'O' :: 'N' :: 'V' :: ' ' :: cs => parseConv cs
  | _ => none

/-- A whole program as the commands its host presents. `flips` are the flips of `$cw` since the last command, `conv`
the converted string that `$data` names since the last command, if any. -/
def assembleLines (c : Params) : List Line → List Nat → Option BitString → List CmdForm
  | [], _, _ => []
  | .command op d :: ls, _, _ => assemble c op d :: assembleLines c ls [] none
  | .onCodeword op :: ls, flips, _ => .prevCodeword op flips :: assembleLines c ls [] none
  | .onData op :: ls, _, some d => assemble c op d :: assembleLines c ls [] none
  | .onData op :: ls, _, none => .prevData op :: assembleLines c ls [] none
  | .flip q :: ls, flips, conv => assembleLines c ls (flips ++ [q]) conv
  | .conv d :: ls, flips, _ => assembleLines c ls flips (some d)

/-- The commands of a program's text, one line after the other; `none` for the whole text where one line cannot be read,
a blank or comment-only line included (the model's choice, assumption log 13). -/
def parseProgram (c : Params) (text : List (List Char)) : Option (List CmdForm) :=
  (text.mapM parseLine).map fun ls => assembleLines c ls [] none

end Sys2Proof.Machine
end

