-- ==== Sys2Proof/Tests/Slice0.lean ====
section
/-! SUPPORT. Tests, their expected results taken from `spec/95_test_vectors.md` and `spec/30_encoding.md`, and for
each obligation with hypotheses a witness that meets them. -/

namespace Sys2Proof.Tests

open Sys2Proof.Machine

/-- The reference instance with another capacity. -/
def withCapacity (nMax : Option Nat) : Params := { Params.reference with nMax := nMax }

/-- A state of the reference instance with these registers and nothing driven. -/
def stateOf (σ : Regs) : State := { State.reset with regs := σ }

/-- The registers after accepting `ENC 1011`, and along the operation (program P1). -/
def accepted : Regs := accept Params.reference .enc 4 0xD
def sized : Regs := sizing Params.reference accepted
def laidOut : Regs := layout Params.reference sized
def parity0 : Regs := parityAction Params.reference 0 laidOut
def parity2 : Regs := parityAction Params.reference 2 (parityAction Params.reference 1 parity0)
def encoded : Regs := operation Params.reference .enc 4 0xD

/-- The same of `DEC 0111011` (program P2). -/
def decAccepted : Regs := accept Params.reference .dec 7 0x6E
def decSized : Regs := sizing Params.reference decAccepted
def decParity2 : Regs := parityActions Params.reference (layout Params.reference decSized)

/-- The ports with a command. -/
def pins (op : Op) (len bits : Nat) : Pins :=
  { rst := false, cmdValid := true, cmdOp := op, cmdLen := len, cmdBits := bits }

def resetPins : Pins := { quietPins with rst := true }

/-! ### Well-formed commands (`30_encoding.md` R71): `LW = 4`, `N_MAX = 15` -/

theorem test_wellFormed_refuses_long_len : ¬ WellFormed Params.reference (.enc 16 0) := by decide
theorem test_wellFormed_refuses_long_bits : ¬ WellFormed Params.reference (.dec 4 0x8000) := by decide
theorem test_wellFormed_accepts_the_largest : WellFormed Params.reference (.dec 15 0x7FFF) := by decide
theorem test_wellFormed_accepts_invalid_operands : WellFormed Params.reference (.dec 0 0) := by decide

/-! ### Command words written out from R72: bits 19..5 `bits`, 4..1 `len`, 0 `op` -/

/-- `ENC 1011`, 0x001A8 -/
theorem test_decode_enc : decodeTableWord 20 0b00000000000110101000 = some (.enc 4 0b1101) := by decide
/-- `DEC 0110011`, 0x00CCF -/
theorem test_decode_dec : decodeTableWord 20 0b00000000110011001111 = some (.dec 7 0b1100110) := by decide
theorem test_encode_enc : encode Params.reference (.enc 4 0xD) = some 0x001A8 := by decide
theorem test_encode_dec : encode Params.reference (.dec 7 0x66) = some 0x00CCF := by decide
theorem test_fetch_runs_enc :
    step (State.reset.withFetchWord 20 0x001A8) = .next (stateOf encoded) := by rfl

/-! ### The two instructions -/

/-- Program P1: codeword `0110011`. -/
theorem test_enc_1011 :
    (encoded.resCw, encoded.resCwLen, encoded.resData, encoded.resDataLen, encoded.resR, encoded.resChk) =
      (0x66, 7, 0xD, 4, 3, 2) := by decide

/-- Program P3, command 4: 12 data bits do not fit 15 positions. -/
theorem test_enc_overflow :
    (operation Params.reference .enc 12 0x72D).status = .lengthOverflow ∧
      (operation Params.reference .enc 12 0x72D).trace =
        [.input .enc 12 (toBits 12 0x72D), .refused .lengthOverflow] := by decide

/-- Program P2: position 4 corrected. -/
theorem test_dec_corrects :
    let σ := operation Params.reference .dec 7 0x6E
    (σ.resCw, σ.resData, σ.resSyndrome, σ.resErrpos, σ.resChk) = (0x66, 0xD, 4, 4, 4) ∧
      (σ.fErr, σ.fCorr, σ.status, σ.inb, σ.buf) = (true, true, .ok, 0x6E, 0x6E) := by decide

/-- Program P3, command 1: syndrome 5 of a word of length 4. -/
theorem test_dec_uncorrectable :
    let σ := operation Params.reference .dec 4 0x9
    (σ.status, σ.resCw, σ.resData, σ.resDataLen, σ.resSyndrome, σ.resErrpos) =
      (.uncorrectableSyndrome, 0x9, 0, 1, 5, 5) ∧
    σ.trace.drop 5 = [.syndrome [1, 4] 5 [true, false, true], .correction (.uncorrectable 5), .extract [false]] := by
  decide

/-! ### The sequencer: program P5, steps 3 and 11 to 12 -/

theorem test_busy_ignores_command :
    tick Params.reference (pins .dec 7 0x6E) accepted = some sized ∧ (sized.r, sized.n, sized.op) = (3, 7, .enc) := by
  decide

theorem test_accept_from_finalized :
    (tick Params.reference (pins .dec 3 0x3) (operation Params.reference .enc 1 0x1)).map
      (fun σ => (σ.ph, σ.inb, σ.resCw, σ.done)) = some (.inputReceived, 0x3, 0, false) := by decide

/-! ### The flags' and codes' encodings, and program text -/

theorem test_codes :
    [Phase.idle, .inputReceived, .sizingComputed, .layoutBuilt, .parityBits, .finalized].map phaseCode =
      [0, 1, 2, 3, 4, 5] ∧
    [Status.ok, .emptyInput, .uncorrectableSyndrome, .lengthOverflow].map statusCode = [0, 1, 2, 3] := by decide

/-- Program P4. -/
theorem test_program_P4 :
    parseProgram Params.reference
      ["CONV ascii A ; a".toList, "ENC $data".toList, "FLIP 12".toList, "DEC $cw".toList] =
      some [.fields .enc 8 0x82, .prevCodeword .dec [12]] := by decide

/-- R80: a position below 1 is no change. -/
theorem test_flip_below_one :
    parseLine "FLIP -1".toList = some (.flip 0) ∧ flip [true, false] 0 = [true, false] ∧
    parseLine "FLIP -".toList = none := by decide

/-- V-S2, and the operand of program P4's `DEC` (0x0891 with position 12 flipped). -/
theorem test_convert_and_flip :
    convert .decimal "13".toList = .ok [true, true, false, true] ∧
    readCommand Params.reference { Regs.reset with done := true, resCw := 0x891, resCwLen := 12 } (.prevCodeword .dec [12]) =
      .ok (.dec 12 0x91) := ⟨by decide, rfl⟩

/-! ### Witnesses -/

theorem witness_WordSpellsItsFields :
    Params.reference.nMax = some 15 ∧ 0xFFFFF < 2 ^ (1 + lw 15 + 15) ∧ 2 ^ (1 + lw 15 + 15) ≤ 0x100000 ∧
      (withCapacity none).nMax = none := by decide

theorem witness_DecodeOfEncodeIsTheCommand :
    Params.reference.nMax = some 15 ∧ WellFormed Params.reference (.dec 15 0x7FFF) := by decide

theorem witness_EncodeOfDecodeIsTheWord :
    Params.reference.nMax = some 15 ∧ 0xFFFFF < 2 ^ (1 + lw 15 + 15) := by decide

theorem witness_BitsBeyondLenAreIgnored :
    (∀ j, j < 3 → (0b101 : Nat).testBit j = (0b11101 : Nat).testBit j) ∧ busy State.reset.regs = false ∧
      exec (instrOfFields .enc 3 0b11101) State.reset =
        .next (stateOf (operation Params.reference .enc 3 0b11101)) ∧ 3 ≤ 3 := by
  exact ⟨by decide, by decide, rfl, by decide⟩

/-- `DEC $cw` after program P1's `ENC`, as a form and as a word, and the same list with the block busy. -/
theorem witness_StepRunsTheDecodedCommand :
    busy encoded = false ∧ readCommand Params.reference encoded (.prevCodeword .dec []) = .ok (.dec 7 0x66) ∧
      decode Params.reference 0x00CCF = .ok (.dec 7 0x66) ∧ busy accepted = true := by decide

theorem witness_FetchWordRunsNext :
    busy encoded = false ∧ decodeTableWord 20 0x00CCF = some (.dec 7 0x66) ∧
      WellFormed (withCapacity (some 7)) (.dec 7 0x66) ∧ WellFormed Params.reference (.dec 7 0x66) := by decide

theorem witness_StepOfAnEdgeIsTheSequencers :
    pinsOnPort Params.reference (pins .enc 15 0x7FFF) = true ∧
      tick Params.reference (pins .enc 15 0x7FFF) Regs.reset = some (accept Params.reference .enc 15 0x7FFF) ∧
      tick Params.reference quietPins accepted = some sized := by decide

theorem witness_InstanceAndHostAreUntouched :
    step (stateOf accepted) = .next (stateOf sized) ∧ exec (.enc 4 0xD) State.reset = .next (stateOf encoded) :=
  ⟨rfl, rfl⟩

theorem witness_ResetGivesTheResetState : resetPins.rst = true := rfl

theorem witness_HoldChangesNothing :
    quietPins.rst = false ∧ Regs.reset.ph = .idle ∧ encoded.ph = .finalized ∧ quietPins.cmdValid = false := by decide

/-- The boundary of the clause on `inb`: a length above the capacity, and the instance without one. -/
theorem witness_AcceptanceLatchesTheCommand :
    (pins .enc 13 0).rst = false ∧ encoded.ph = .finalized ∧ (pins .enc 13 0).cmdValid = true ∧
      (withCapacity (some 12)).nMax = some 12 ∧ 12 < (pins .enc 13 0).cmdLen ∧ (withCapacity none).nMax = none ∧
      Params.reference.traceEn = true := by decide

/-- One operand for each test, at the first length that fails. -/
theorem witness_InvalidOperandsAreRefused :
    quietPins.rst = false ∧ (accept Params.reference .dec 0 0).ph = .inputReceived ∧
      (accept Params.reference .dec 0 0).len = 0 ∧ (withCapacity (some 12)).nMax = some 12 ∧
      12 < (accept (withCapacity (some 12)) .dec 13 0).len ∧
      15 < (accept Params.reference .enc 12 0).len + redundancy (accept Params.reference .enc 12 0).len := by decide

/-- The longest operands that fit. -/
theorem witness_SizingSetsLengthAndParityCount :
    quietPins.rst = false ∧ (accept Params.reference .enc 11 0).ph = .inputReceived ∧
      fitsCapacity Params.reference ((accept Params.reference .enc 11 0).len + redundancy 11) = true ∧
      (accept Params.reference .dec 15 0).len ≠ 0 ∧
      fitsCapacity Params.reference (accept Params.reference .dec 15 0).len = true := by decide

theorem witness_LayoutPlacesOrCopies :
    quietPins.rst = false ∧ sized.ph = .sizingComputed ∧ sized.op = .enc ∧ decSized.ph = .sizingComputed ∧
      decSized.op = .dec ∧ 1 ≤ 7 ∧ 7 ≤ decSized.n := by decide

/-- The first and the last parity step. -/
theorem witness_ParityStepWritesOneBit :
    quietPins.rst = false ∧ laidOut.ph = .layoutBuilt ∧ 0 < laidOut.r ∧ laidOut.op = .enc ∧
      (parityAction Params.reference 1 parity0).ph = .parityBits ∧
      2 = (parityAction Params.reference 1 parity0).k + 1 ∧ 2 < (parityAction Params.reference 1 parity0).r := by
  decide

/-- From `ParityBits(r-1)`, and from `LayoutBuilt` for the empty string. -/
theorem witness_EncodeIsPublished :
    quietPins.rst = false ∧ parity2.op = .enc ∧ parity2.ph = .parityBits ∧ parity2.k + 1 = parity2.r ∧
      (layout Params.reference (sizing Params.reference (accept Params.reference .enc 0 0))).ph = .layoutBuilt ∧
      (layout Params.reference (sizing Params.reference (accept Params.reference .enc 0 0))).r = 0 := by decide

theorem witness_DecodeIsPublished :
    quietPins.rst = false ∧ decParity2.op = .dec ∧ decParity2.ph = .parityBits ∧ decParity2.k + 1 = decParity2.r := by
  decide

theorem witness_BusyIgnoresTheCommandPort :
    busy accepted = true ∧ (pins .dec 7 0x6E).rst = quietPins.rst := by decide

theorem witness_CommandWhileBusyIsLost :
    busy accepted = true ∧ exec (.dec 7 0x6E) (stateOf accepted) = .next (stateOf sized) := ⟨by decide, rfl⟩

theorem witness_FinalizedHoldsItsResults : encoded.ph = .finalized := by decide

/-- A good state inside an operation. -/
theorem accepted_wf : Regs.Wf Params.reference accepted where
  len_onPort := by decide
  inb_lt := by decide
  n_fits := by decide
  r_eq := by decide
  buf_lt := by decide
  chk_lt := by decide
  k_range := by decide
  parity_progress := by decide
  idle_reset := fun h => absurd h (by decide)
  accepted := by decide
  sized := by decide
  unwritten := by decide
  done_iff := by decide
  cleared := fun _ => by constructor <;> decide
  refused := fun h => absurd h (by decide)
  published := by decide
  resCw_lt := by decide
  resData_lt := by decide
  resChk_lt := by decide
  resSyndrome_lt := by decide
  resErrpos_lt := fun nMax _ => Nat.two_pow_pos (sw nMax)
  fErr_iff := by decide
  fCorr_iff := by decide
  uncorrectable_iff := by decide
  no_trace := fun h => absurd h (by decide)

theorem witness_PhasesGoForwardOnly :
    Regs.Wf Params.reference accepted ∧ quietPins.rst = false ∧ busy accepted = true ∧
      tick Params.reference quietPins accepted = some sized :=
  ⟨accepted_wf, rfl, by decide, by decide⟩

theorem witness_StepKeepsTheGoodState :
    State.Inv (stateOf accepted) ∧ step (stateOf accepted) = .next (stateOf sized) :=
  ⟨⟨fun n h => by cases h; decide, accepted_wf⟩, rfl⟩

/-- A good state after an operation, in the reference instance and in the one with `N_MAX = ∞`. -/
theorem encoded_wf : ∀ c ∈ [Params.reference, withCapacity none], Regs.Wf c (operation c .enc 4 0xD) := by
  simp only [List.forall_mem_cons, List.not_mem_nil, false_implies, implies_true, and_true]
  constructor <;> exact
    { len_onPort := by decide
      inb_lt := by decide
      n_fits := by decide
      r_eq := by decide
      buf_lt := by decide
      chk_lt := by decide
      k_range := by decide
      parity_progress := by decide
      idle_reset := fun h => absurd h (by decide)
      accepted := by decide
      sized := by decide
      unwritten := by decide
      done_iff := by decide
      cleared := fun h => absurd rfl h
      refused := fun h => absurd h (by decide)
      published := by decide
      resCw_lt := by decide
      resData_lt := by decide
      resChk_lt := by decide
      resSyndrome_lt := by decide
      resErrpos_lt := fun nMax _ => Nat.two_pow_pos (sw nMax)
      fErr_iff := by decide
      fCorr_iff := by decide
      uncorrectable_iff := by decide
      no_trace := fun h => absurd h (by decide) }

/-- An instance after `ENC 1011`, with this act next. -/
def encodedWith (c : Params) (a : HostAct) : State :=
  { params := c, regs := operation c .enc 4 0xD, host := [a] }

theorem encodedWith_inv {c : Params} (hc : c ∈ [Params.reference, withCapacity none]) (a : HostAct) :
    State.Inv (encodedWith c a) := by
  refine ⟨?_, encoded_wf c hc⟩
  intro nMax h
  rcases List.mem_cons.mp hc with rfl | hc
  · cases h; decide
  · cases List.mem_singleton.mp hc; cases h

/-- An instance of every kind the clause speaks of. -/
theorem witness_ResetIsGood :
    Params.Ok Params.reference ∧ Params.Ok (withCapacity (some 1)) ∧ Params.Ok (withCapacity none) :=
  ⟨fun _ h => by cases h; decide, fun _ h => by cases h; decide, fun _ h => by cases h⟩

/-- The block in `Idle` is in a good state. -/
theorem idle_wf : Regs.Wf Params.reference Regs.reset where
  len_onPort := by decide
  inb_lt := by decide
  n_fits := by decide
  r_eq := by decide
  buf_lt := by decide
  chk_lt := by decide
  k_range := by decide
  parity_progress := by decide
  idle_reset := fun _ => rfl
  accepted := by decide
  sized := by decide
  unwritten := by decide
  done_iff := by decide
  cleared := fun _ => by constructor <;> decide
  refused := fun h => absurd h (by decide)
  published := by decide
  resCw_lt := by decide
  resData_lt := by decide
  resChk_lt := by decide
  resSyndrome_lt := by decide
  resErrpos_lt := fun nMax _ => Nat.two_pow_pos (sw nMax)
  fErr_iff := by decide
  fCorr_iff := by decide
  uncorrectable_iff := by decide
  no_trace := fun h => absurd h (by decide)

/-- The block in `Idle`, with a line on a previous result next. -/
def idleWith (f : CmdForm) : State := { State.reset with host := [.command f] }

/-- A good state, busy and not busy. -/
theorem witness_BlockCannotHang : State.Inv (stateOf accepted) ∧ Regs.Wf Params.reference accepted ∧
    State.Inv (encodedWith Params.reference (.edge quietPins)) :=
  ⟨witness_StepKeepsTheGoodState.1, accepted_wf, encodedWith_inv (by decide) _⟩

/-- Each refusal of a good state, at the first value that the port does not carry. -/
theorem witness_BlockCannotHang_refusals :
    (State.Inv (encodedWith Params.reference (.edge (pins .enc 16 0))) ∧
      step (encodedWith Params.reference (.edge (pins .enc 16 0))) = .refused .notOnPort) ∧
    (State.Inv (encodedWith (withCapacity none) (.command (.word 0))) ∧
      step (encodedWith (withCapacity none) (.command (.word 0))) = .refused (.notACommandWord .noWordFormat)) ∧
    (State.Inv (encodedWith Params.reference (.command (.word 0x100000))) ∧
      step (encodedWith Params.reference (.command (.word 0x100000))) = .refused (.notACommandWord .tooWide)) ∧
    (State.Inv (encodedWith Params.reference (.command (.fields .dec 4 0x8000))) ∧
      step (encodedWith Params.reference (.command (.fields .dec 4 0x8000))) = .refused .notOnPort) :=
  ⟨⟨encodedWith_inv (by decide) _, by rfl⟩, ⟨encodedWith_inv (by decide) _, by rfl⟩,
    ⟨encodedWith_inv (by decide) _, by rfl⟩, ⟨encodedWith_inv (by decide) _, by rfl⟩⟩

/-- `DEC $cw` after `FLIP 3`, and `ENC $data`, as R79 and R80 of `30_encoding.md` read them. -/
theorem witness_BlockCannotHang_previous :
    busy encoded = false ∧ encoded.done = true ∧
    State.Inv (encodedWith Params.reference (.command (.prevCodeword .dec [3]))) ∧
    step (encodedWith Params.reference (.command (.prevCodeword .dec [3]))) =
      exec (.dec 7 0x62) (stateOf encoded) ∧
    State.Inv (encodedWith Params.reference (.command (.prevData .enc))) ∧
    step (encodedWith Params.reference (.command (.prevData .enc))) = exec (.enc 4 0xD) (stateOf encoded) :=
  ⟨by decide, by decide, encodedWith_inv (by decide) _, by rfl, encodedWith_inv (by decide) _, by rfl⟩

/-- The same lines before any command has finished: the host must not read a result there (R206). -/
theorem witness_BlockCannotHang_noResult :
    (∀ f, State.Inv (idleWith f)) ∧ busy State.reset.regs = false ∧ State.reset.regs.done = false ∧
    step (idleWith (.prevCodeword .dec [3])) = .refused .noResult ∧
    step (idleWith (.prevData .enc)) = .refused .noResult :=
  ⟨fun _ => ⟨fun n h => by cases h; decide, idle_wf⟩, by decide, by decide, by rfl, by rfl⟩

theorem witness_CandidatesAreTheTestedOnes : 0 ≤ redundancy 4 ∧ 3 ≤ redundancy 4 := by decide

theorem witness_RedundancyTableRow : 2 ≤ 2 ∧ 2 ≤ 10 := by decide

theorem witness_EncoderLengths : 1 ≤ 1 ∧ 3 ≤ 3 ∧ isParityPos 3 = false ∧ 1 + redundancy 1 = 3 := by decide

theorem witness_CoversMeetParityPositionsOnce :
    2 ^ 2 ≤ 4 ∧ 1 ≤ 7 ∧ 7 ≤ 7 ∧ isParityPos 7 = false ∧ 4 ∈ cover (2 ^ 2) 4 := by decide

theorem witness_DataPositionsInOrder : 1 ≤ 1 ∧ isParityPos 3 = false ∧ dataPos 1 = 3 := by decide

theorem witness_PlacePutsDataInOrder : 1 ≤ 11 ∧ 11 ≤ 11 ∧ dataPos 11 = 15 := by decide

theorem witness_ParityBitIsXorOfDataBits : 2 < redundancy [true, false, true, true].length := by decide

theorem witness_ParityOrderDoesNotMatter : ([2, 0, 1] : List Nat).Perm [0, 1, 2] := by decide

theorem witness_SyndromeIsXorOfPositions :
    ([true] : BitString) ≠ [] ∧ [true, false].length = [true, true].length := by decide

/-- A syndrome that is the length, and one beyond it. -/
theorem witness_CorrectionFlipsTheSyndromePosition :
    1 ≤ 1 ∧ 1 ≤ [true].length ∧ syndromeOf [true] = [true].length ∧ [true, true].length < syndromeOf [true, true] := by
  decide

theorem witness_ExtractReadsTheDataPositions : 1 ≤ 4 ∧ 4 ≤ 7 - bitlen 7 ∧ dataPos 4 = 7 := by decide

theorem witness_OverflowIsBeyondMMax : 1 ≤ 1 ∧ mMax 1 = 0 ∧ mMax 15 = 11 ∧ mMax 16 = 11 := by decide

theorem witness_EncCompletesWithItsResult :
    busy State.reset.regs = false ∧ fitsCapacity State.reset.params (11 + redundancy 11) = true ∧
      State.reset.params.traceEn = true := by decide

theorem witness_DecCompletesWithItsResult :
    busy State.reset.regs = false ∧ 15 ≠ 0 ∧ fitsCapacity State.reset.params 15 = true ∧
      State.reset.params.traceEn = true := by decide

theorem witness_RefusedCommandReportsItsCondition :
    busy encoded = false ∧ (withCapacity (some 12)).nMax = some 12 ∧
      12 < instrLen (.dec 13 0) ∧ 12 < instrLen (.enc 9 0) + redundancy (instrLen (.enc 9 0)) := by decide

/-- `ENC 1011` takes 7 steps, a refused command 2. -/
theorem witness_SequencerRunsTheOperation :
    busy Regs.reset = false ∧ (pins .enc 4 0xD).rst = false ∧ (pins .enc 4 0xD).cmdValid = true ∧
      (∀ q ∈ List.replicate 6 (pins .dec 7 0x6E), q.rst = false) ∧
      (List.replicate 6 (pins .dec 7 0x6E)).length + 1 = operationSteps Params.reference .enc 4 ∧
      refusal Params.reference .enc 4 = none ∧ operationSteps Params.reference .dec 0 = 2 := by decide

/-- The steps 1, 2, 3, 6 and 7 of `ENC 1011`, and the last of a refused command. -/
theorem witness_PhaseSequence :
    busy encoded = false ∧ (pins .enc 4 0xD).rst = false ∧ (pins .enc 4 0xD).cmdValid = true ∧
      (∀ q ∈ List.replicate 6 quietPins, q.rst = false) ∧ 6 < operationSteps Params.reference .enc 4 ∧
      refusal Params.reference .enc 4 = none ∧ 5 = 2 + 3 ∧ 2 + 4 < operationSteps Params.reference .enc 4 ∧
      6 + 1 = operationSteps Params.reference .enc 4 ∧ 1 + 1 = operationSteps Params.reference .dec 0 := by decide

theorem witness_EdgesRunTheInstruction :
    busy Regs.reset = false ∧ WellFormed Params.reference (.enc 4 0xD) ∧
      (∀ q ∈ List.replicate 6 (pins .dec 7 0x6E), q.rst = false ∧ pinsOnPort Params.reference q = true) ∧
      (List.replicate 6 (pins .dec 7 0x6E)).length + 1 =
        operationSteps Params.reference (instrOp (.enc 4 0xD)) (instrLen (.enc 4 0xD)) := by decide

theorem witness_DecodeInvertsEncode :
    busy State.reset.regs = false ∧ fitsCapacity State.reset.params (0 + redundancy 0) = true ∧
      fitsCapacity State.reset.params (11 + redundancy 11) = true := by decide

theorem witness_SingleErrorIsCorrected :
    busy State.reset.regs = false ∧ fitsCapacity State.reset.params (11 + redundancy 11) = true ∧ 1 ≤ 1 ∧ 1 ≤ 15 ∧
      15 ≤ 11 + redundancy 11 := by decide

theorem witness_ErrorsXorTheirPositions :
    [1, 7].Nodup ∧ (∀ q ∈ [1, 7], 1 ≤ q ∧ q ≤ (hammingEncode [true, false, true, true]).codeword.length) ∧
      [1, 7].length = 2 := by decide

theorem witness_EncodedWordSatisfiesItsChecks : 2 < redundancy [true, false, true, true].length := by decide

theorem witness_EncodeIsLinear : [true, false].length = [true, true].length := rfl

theorem witness_CodewordsDifferInThreePositions :
    [true, false].length = [true, true].length ∧ [true, false] ≠ [true, true] := by decide

/-- A length with uncorrectable words and one without. -/
theorem witness_UncorrectableExactlyWhenLengthIsShort :
    7 < 2 ^ ppid 5 ∧ 5 ≠ 0 ∧ busy State.reset.regs = false ∧ fitsCapacity State.reset.params 5 = true ∧
      5 + 1 ≠ 2 ^ ppid 5 ∧ 7 + 1 = 2 ^ ppid 7 := by decide

theorem witness_NothingSurvivesAnOperation :
    busy State.reset.regs = false ∧ busy (stateOf encoded).regs = false ∧
      State.reset.params = (stateOf encoded).params ∧ exec (.enc 4 0xD) State.reset = .next (stateOf encoded) ∧
      exec (.enc 4 0xD) (stateOf encoded) = .next (stateOf encoded) :=
  ⟨by decide, by decide, rfl, rfl, rfl⟩

theorem witness_TraceIsAppendOnly :
    busy accepted = true ∧ quietPins.rst = false ∧ tick Params.reference quietPins accepted = some sized := by decide

theorem witness_TraceEventCounts :
    Params.reference.traceEn = true ∧ refusal Params.reference .dec 7 = none ∧
      refusal Params.reference .dec 0 ≠ none := by decide

theorem witness_TraceInfluencesNothing : tick Params.reference quietPins accepted = some sized := by decide

theorem witness_ErrposParameterShowsInErrposOnly :
    (operation Params.reference .dec 7 0x6E).status ≠ .uncorrectableSyndrome := by decide

/-- A command that ends in `UncorrectableSyndrome` (`DEC 1001`, vector D20), for each parameter and kind of instance
that the last clause speaks of. -/
theorem witness_ErrposParameterShowsInErrposOnly_uncorrectable :
    ∀ e ∈ [ErrposUncorr.syndrome, .zero, .other], ∀ nMax ∈ [none, some 15],
      (operation { Params.reference with errpos := e, nMax := nMax } .dec 4 0x9).status = .uncorrectableSyndrome := by
  decide

/-- A line on `$cw` with a position flipped twice, one flipped once and two that do not exist, and a line on `$data`, after
a command; either line in `Idle`; and a busy block. -/
theorem witness_ResultsAreReadOnlyWhenDone :
    (∀ f, State.Inv (encodedWith Params.reference (.command f))) ∧ busy encoded = false ∧ encoded.done = true ∧
    step (encodedWith Params.reference (.command (.prevCodeword .dec [0, 1, 3, 1, 8]))) =
      exec (.dec 7 0x62) (stateOf encoded) ∧
    (∀ f, State.Inv (idleWith f)) ∧ State.reset.regs.done = false ∧
    State.Inv (stateOf accepted) ∧ busy accepted = true :=
  ⟨fun _ => encodedWith_inv (by decide) _, by decide, by decide, by rfl, witness_BlockCannotHang_noResult.1, by decide,
    witness_StepKeepsTheGoodState.1, by decide⟩

end Sys2Proof.Tests
end

section
/-! PROOFS. Covers of the parity positions (`00_scope.md` R12) and the longest data string (`00_scope.md` R5). -/

namespace Sys2Proof.Machine

/-! ### Covers (`00_scope.md` R12) -/

/-- The bits of a data position: it is no power of two, so below its highest bit there is another. -/
theorem exists_two_bits_of_not_isParityPos {i : Nat} (h1 : 1 ≤ i) (hp : isParityPos i = false) :
    ∃ j k, j < k ∧ i.testBit j = true ∧ i.testBit k = true := by
  have hi : i ≠ 0 := by omega
  obtain ⟨m, hm⟩ := Nat.exists_eq_add_of_le (Nat.log2_self_le hi)
  have hm0 : m ≠ 0 := by
    rintro rfl
    rw [hm, Nat.add_zero, isParityPos_two_pow] at hp
    cases hp
  have hlt : m.log2 < i.log2 := (Nat.log2_lt hm0).2 (by
    have := Nat.lt_log2_self (n := i)
    rw [Nat.pow_succ] at this
    omega)
  refine ⟨m.log2, i.log2, hlt, ?_, Nat.testBit_log2 hi⟩
  calc i.testBit m.log2 = (2 ^ i.log2 + m).testBit m.log2 := by rw [← hm]
    _ = m.testBit m.log2 := Nat.testBit_two_pow_add_gt hlt m
    _ = true := Nat.testBit_log2 hm0

/-- A parity position is covered by itself alone among the parity positions. -/
theorem two_pow_mem_cover_iff {j k n : Nat} : 2 ^ j ∈ cover (2 ^ k) n ↔ j = k ∧ 2 ^ j ≤ n := by
  simp [Nat.testBit_two_pow, Nat.one_le_two_pow, and_comm]

/-- What covers a position does not exceed it. -/
theorem two_pow_le_of_mem_cover {i k n : Nat} (h : i ∈ cover (2 ^ k) n) : 2 ^ k ≤ i :=
  Nat.ge_two_pow_of_testBit (mem_cover.1 h).2

/-- Settles O28: covers are read bit by bit (`mem_cover`), and a data position has two bits set. -/
theorem coversMeetParityPositionsOnce : Obligations.CoversMeetParityPositionsOnce := by
  refine ⟨fun j k n _ => two_pow_mem_cover_iff, fun i n h1 hn hp => ?_,
    fun i k n h => ⟨two_pow_le_of_mem_cover h, (cover_in_range h).2⟩⟩
  obtain ⟨j, k, hjk, hj, hk⟩ := exists_two_bits_of_not_isParityPos h1 hp
  have covered : ∀ {b}, i.testBit b = true → i ∈ cover (2 ^ b) n := fun hb => mem_cover.2 ⟨⟨h1, hn⟩, hb⟩
  exact ⟨j, k, hjk, two_pow_le_of_mem_cover (covered hk), covered hj, covered hk⟩

/-! ### The redundancy and `M_MAX` (`40_encoder.md` R91, `00_scope.md` R5) -/

/-- What `R(m)` is: the candidates that pass are those from it on. -/
theorem redundancy_le_iff {m r : Nat} : redundancy m ≤ r ↔ m + r + 1 ≤ 2 ^ r := by
  obtain ⟨hok, -, -, hfail⟩ := sizeLoop_spec m (m + 1) 0 (by simpa using sizeOk_bound m)
  rw [← sizeOk_iff]
  constructor
  · intro h
    induction r, h using Nat.le_induction with
    | base => exact hok
    | succ r _ ih => exact sizeOk_succ ih
  · intro h
    by_contra hlt
    have hno : sizeOk m r = false := hfail r (Nat.zero_le r) (not_le.1 hlt)
    rw [h] at hno
    cases hno

@[simp] theorem redundancy_zero : redundancy 0 = 0 := rfl

theorem redundancy_mono {a b : Nat} (h : a ≤ b) : redundancy a ≤ redundancy b := by
  have hb : b + redundancy b + 1 ≤ 2 ^ redundancy b := redundancy_le_iff.1 le_rfl
  exact redundancy_le_iff.2 (by omega)

/-- A longer data string has a longer codeword. -/
theorem encodedLength_mono {a b : Nat} (h : a ≤ b) : a + redundancy a ≤ b + redundancy b :=
  Nat.add_le_add h (redundancy_mono h)

/-- What the search for `M_MAX` answers: the largest length up to its bound whose codeword fits. -/
theorem mMaxLoop_spec (nMax bound : Nat) :
    mMaxLoop nMax bound + redundancy (mMaxLoop nMax bound) ≤ nMax ∧
      ∀ len, len ≤ bound → len + redundancy len ≤ nMax → len ≤ mMaxLoop nMax bound := by
  induction bound with
  | zero => exact ⟨by simp [mMaxLoop], fun len h _ => h⟩
  | succ m ih =>
    obtain ⟨hfits, hmax⟩ := ih
    rw [mMaxLoop]
    split
    case isTrue h => exact ⟨h, fun len hlen _ => hlen⟩
    case isFalse h =>
      refine ⟨hfits, fun len hlen hfit => hmax len (Nat.le_of_lt_succ (lt_of_le_of_ne hlen ?_)) hfit⟩
      rintro rfl
      exact h hfit

/-- The data strings whose codeword fits are those up to `M_MAX`: none is longer than its codeword, so the search from
`N_MAX` down misses none. -/
theorem encodedLength_le_iff {nMax len : Nat} : len + redundancy len ≤ nMax ↔ len ≤ mMax nMax := by
  obtain ⟨hfits, hmax⟩ := mMaxLoop_spec nMax nMax
  exact ⟨fun h => hmax len (by omega) h, fun h => (encodedLength_mono h).trans hfits⟩

/-- Settles O36: codeword lengths grow with `len`, and `M_MAX` is the largest `len` whose codeword fits. -/
theorem overflowIsBeyondMMax : Obligations.OverflowIsBeyondMMax := by
  refine fun nMax _ => ⟨encodedLength_le_iff.2 le_rfl, fun len => ?_⟩
  rw [← not_le, encodedLength_le_iff, not_le]

end Sys2Proof.Machine
end

section
/-! PROOFS. The good states of `Safety.lean`: the reset state is one, and every transition of `42_sequencer.md` R150,
every whole operation and every step keeps them. -/

namespace Sys2Proof.Machine

variable {c : Params} {σ : Regs}

/-! ### Sizes and the syndrome -/

/-- `PPID` counts the powers of two not exceeding `n` (`41_decoder.md` R120). -/
theorem ppid_eq_bitlen (n : Nat) : ppid n = bitlen n :=
  (bitlen_unique (ppidLoop_spec n n 0 (by simpa using Nat.lt_two_pow_self) (by simp))).symm

/-- An encoder's length has as many parity positions as the encoder computes (`40_encoder.md` R93). -/
theorem bitlen_encodedLength (m : Nat) : bitlen (m + redundancy m) = redundancy m := by
  refine bitlen_unique fun k => ⟨fun hk => ?_, fun hk => ?_⟩
  · have hno : ¬ m + k + 1 ≤ 2 ^ k := fun h => by have := redundancy_le_iff.2 h; omega
    omega
  · by_contra hge
    have hfit : m + redundancy m + 1 ≤ 2 ^ redundancy m := redundancy_le_iff.1 le_rfl
    have hpow : 2 ^ redundancy m ≤ 2 ^ k := Nat.pow_le_pow_right (by decide) (not_lt.1 hge)
    omega

/-- A syndrome of `r` checks has `r` bits (`41_decoder.md` R125). -/
theorem syndrome_lt (chk r : Nat) : syndrome chk r < 2 ^ r := by
  induction r with
  | zero => simp [syndrome, failedPositions]
  | succ r ih => rw [syndrome_succ, Nat.pow_succ]; split <;> omega

/-- The flag of a flipped bit, read off the syndrome (`10_state.md` R33). -/
theorem flagCorr_locate_iff {s n : Nat} : flagCorr (locate s n) = true ↔ 1 ≤ s ∧ s ≤ n := by
  unfold locate
  split
  · simp [flagCorr]; omega
  · split <;> simp [flagCorr] <;> omega

/-- A codeword length that fits has its parity count within `SW` bits (`10_state.md` R20). -/
theorem bitlen_le_sw {n nMax : Nat} (hc : c.nMax = some nMax) (h : fitsCapacity c n = true) : bitlen n ≤ sw nMax :=
  bitlen_mono (by simpa [fitsCapacity, hc] using h)

/-- Whatever `ERRPOS_UNCORR` is, the error position of a word that fits has `SW` bits (`10_state.md` R20). -/
theorem errorPosition_lt {s n nMax : Nat} (hc : c.nMax = some nMax) (hn : fitsCapacity c n = true)
    (hs : s < 2 ^ bitlen n) : errorPosition c (locate s n) < 2 ^ sw nMax := by
  have hsw : s < 2 ^ sw nMax := hs.trans_le (Nat.pow_le_pow_right (by decide) (bitlen_le_sw hc hn))
  unfold locate
  split
  · exact Nat.two_pow_pos _
  · split
    · exact hsw
    · simp only [errorPosition, errposUncorr]
      split
      · exact hsw
      · exact Nat.two_pow_pos _
      · simpa [onErrpos, hc] using Nat.mod_lt _ (Nat.two_pow_pos _)

/-! ### What T8 and T9 publish (`42_sequencer.md` R159, R160) -/

/-- The registers at `Finalized`, from the sizes and parities at hand and the results given; an encode publishes the
syndrome 0. -/
def Regs.publish (σ : Regs) (cw data dataLen s errpos : Nat) : Regs :=
  { σ with
    status := if σ.n < s then .uncorrectableSyndrome else σ.status
    resCw := cw, resCwLen := σ.n, resData := data, resDataLen := dataLen, resR := σ.r, resChk := σ.chk
    resSyndrome := s, resErrpos := errpos, fErr := flagErr s, fCorr := flagCorr (locate s σ.n)
    done := true, ph := .finalized }

/-- What `SYNDROME` and `LOCATE` answer on the registers. -/
def Regs.located (σ : Regs) : Located := locate (syndrome σ.chk σ.r) σ.n

/-- The events of T9. -/
def Regs.decodeEvents (σ : Regs) : List Event :=
  [syndromeEvent σ.chk σ.r, .correction (correctionOf σ.buf σ.located),
    .extract (extract (correct σ.buf σ.located) σ.n)]

/-- The registers T9 leaves, but for the trace, with this error position. -/
def Regs.publishDecode (σ : Regs) (errpos : Nat) : Regs :=
  σ.publish (correct σ.buf σ.located) (ofBits (extract (correct σ.buf σ.located) σ.n)) (σ.n - σ.r)
    (syndrome σ.chk σ.r) errpos

theorem finalizeEnc_eq_publish (c : Params) (σ : Regs) :
    finalizeEnc c σ = emit c [.finalCodeword (toBits σ.n σ.buf)] (σ.publish σ.buf σ.inb σ.len 0 0) := by
  simp [finalizeEnc, Regs.publish, flagErr, flagCorr, locate]

theorem finalizeDec_eq_publish (c : Params) (σ : Regs) :
    finalizeDec c σ = emit c σ.decodeEvents (σ.publishDecode (errorPosition c σ.located)) := by
  unfold finalizeDec Regs.publishDecode Regs.publish Regs.decodeEvents Regs.located
  simp only [locate]
  by_cases h0 : syndrome σ.chk σ.r = 0
  · simp [h0, raiseLocated]
  · by_cases hn : syndrome σ.chk σ.r ≤ σ.n
    · simp [h0, hn, not_lt.2 hn, raiseLocated]
    · simp [h0, hn, not_le.1 hn, raiseLocated, raise, conditionStatus]

/-! ### The transitions T4 to T7 of each operation -/

theorem sizing_of_enc (hop : σ.op = .enc) : sizing c σ =
    emit c [.sizing σ.len (candidates σ.len), .parityPositions (parityPositions (redundancy σ.len))]
      { σ with r := redundancy σ.len, n := σ.len + redundancy σ.len, ph := .sizingComputed } := by
  simp [sizing, hop]

theorem sizing_of_dec (hop : σ.op = .dec) : sizing c σ =
    emit c [.parityPositions (parityPositions (ppid σ.len))]
      { σ with n := σ.len, r := ppid σ.len, ph := .sizingComputed } := by
  simp [sizing, hop]

theorem layout_of_enc (hop : σ.op = .enc) : layout c σ =
    emit c [.layout σ.n (layoutCells (place σ.inb σ.n) σ.n)]
      { σ with buf := place σ.inb σ.n, ph := .layoutBuilt } := by
  simp [layout, hop]

theorem layout_of_dec (hop : σ.op = .dec) :
    layout c σ = { σ with buf := σ.inb % 2 ^ σ.n, ph := .layoutBuilt } := by
  simp [layout, hop]

theorem parityAction_of_enc {j : Nat} (hop : σ.op = .enc) : parityAction c j σ =
    emit c [parityEvent σ.buf σ.n j]
      { σ with ph := .parityBits, k := j, buf := parityBuf σ.n j σ.buf
               chk := setBit σ.chk j (coverParity σ.buf σ.n (2 ^ j)) } := by
  simp [parityAction, hop, parityUnit]

theorem parityAction_of_dec {j : Nat} (hop : σ.op = .dec) : parityAction c j σ =
    emit c [parityEvent σ.buf σ.n j]
      { σ with ph := .parityBits, k := j, chk := checkUnit σ.buf σ.n j σ.chk } := by
  simp [parityAction, hop]

theorem finalize_of_enc (hop : σ.op = .enc) : finalize c σ = finalizeEnc c σ := by simp [finalize, hop]

theorem finalize_of_dec (hop : σ.op = .dec) : finalize c σ = finalizeDec c σ := by simp [finalize, hop]

/-! ### The transitions keep the good states -/

theorem Regs.Wf.not_done (h : Regs.Wf c σ) (hph : σ.ph ≠ .finalized) : σ.done = false := by
  simpa [hph] using h.done_iff

/-- R46: the reset state is good. -/
theorem wf_reset (c : Params) : Regs.Wf c Regs.reset where
  len_onPort := by unfold lenOnPort; split <;> simp
  inb_lt := Nat.two_pow_pos _
  n_fits := by unfold fitsCapacity; split <;> simp
  r_eq := rfl
  buf_lt := by decide
  chk_lt := by decide
  k_range := .inl rfl
  parity_progress := nofun
  idle_reset := fun _ => rfl
  accepted := nofun
  sized := by simp
  unwritten := ⟨nofun, by simp⟩
  done_iff := by simp
  cleared := fun _ => by constructor <;> rfl
  refused := by simp
  published := nofun
  resCw_lt := by decide
  resData_lt := by decide
  resChk_lt := by decide
  resSyndrome_lt := by decide
  resErrpos_lt := fun _ _ => Nat.two_pow_pos _
  fErr_iff := by simp
  fCorr_iff := by simp
  uncorrectable_iff := by simp
  no_trace := fun _ => rfl

/-- Outside `Idle` events may be appended, where the trace port exists. -/
theorem wf_emit (h : Regs.Wf c σ) (hph : σ.ph ≠ .idle) (evs : List Event) : Regs.Wf c (emit c evs σ) := by
  unfold emit
  split
  case isTrue hen =>
    exact { h with
      idle_reset := fun hi => absurd hi hph
      cleared := fun hf => { h.cleared hf with }
      refused := fun hs => { h.refused hs with }
      no_trace := by simp [hen] }
  case isFalse => exact h

/-- T2 (R153), with a length that the port carries. -/
theorem wf_accept {op : Op} {len bits : Nat} (hlen : lenOnPort c len = true) :
    Regs.Wf c (accept c op len bits) := by
  have hreset := wf_reset c
  unfold accept
  refine wf_emit ?_ (by simp) _
  exact { hreset with
    len_onPort := hlen
    inb_lt := Nat.mod_lt _ (Nat.two_pow_pos _)
    parity_progress := nofun
    idle_reset := nofun
    accepted := fun _ => ⟨rfl, rfl, rfl, rfl, rfl⟩
    sized := by simp
    unwritten := ⟨nofun, by simp⟩
    done_iff := by simp
    cleared := fun _ => { hreset.cleared nofun with }
    refused := by simp
    published := nofun }

/-- T3 (R154) but for its event. -/
theorem wf_setRefused {st : Status} (h : Regs.Wf c σ) (hph : σ.ph = .inputReceived)
    (hst : st = .emptyInput ∨ st = .lengthOverflow) :
    Regs.Wf c { σ with status := st, done := true, ph := .finalized } :=
  have hcleared := h.cleared (by simp [hph])
  { h with
    parity_progress := nofun
    idle_reset := nofun
    accepted := nofun
    sized := by simp
    unwritten := ⟨nofun, by simp⟩
    done_iff := by simp
    cleared := fun hf => absurd rfl hf
    refused := fun _ => { hcleared with status := rfl }
    published := by rcases hst with rfl | rfl <;> simp
    uncorrectable_iff := by rcases hst with rfl | rfl <;> simp [hcleared.resCwLen, hcleared.resSyndrome] }

theorem wf_refuse {cond : Condition} (h : Regs.Wf c σ) (hph : σ.ph = .inputReceived)
    (hr : refusal c σ.op σ.len = some cond) : Regs.Wf c (refuse c cond σ) := by
  obtain ⟨rfl, -, -⟩ | rfl := refusal_some_cases hr
  · exact wf_emit (wf_setRefused h hph (.inl rfl)) nofun _
  · exact wf_emit (wf_setRefused h hph (.inr rfl)) nofun _

/-- T4 (R155) but for its events: a codeword length that fits, with its parity count. -/
theorem wf_setSizes {n : Nat} (h : Regs.Wf c σ) (hph : σ.ph = .inputReceived) (hr : refusal c σ.op σ.len = none)
    (hn : n = match σ.op with | .enc => σ.len + redundancy σ.len | .dec => σ.len)
    (hfits : fitsCapacity c n = true) : Regs.Wf c { σ with r := bitlen n, n := n, ph := .sizingComputed } := by
  obtain ⟨hk, -, -, hbuf, hchk⟩ := h.accepted hph
  exact { h with
    n_fits := hfits
    r_eq := rfl
    buf_lt := hbuf ▸ Nat.two_pow_pos _
    chk_lt := hchk ▸ Nat.two_pow_pos _
    k_range := .inl hk
    parity_progress := nofun
    idle_reset := nofun
    accepted := nofun
    sized := fun _ => ⟨hr, hn⟩
    unwritten := ⟨fun _ => hbuf, fun _ => ⟨hchk, hk⟩⟩
    done_iff := by simp [h.not_done, hph]
    cleared := fun _ => { h.cleared (by simp [hph]) with }
    refused := fun hs => { h.refused hs with }
    published := nofun }

theorem wf_sizing (h : Regs.Wf c σ) (hph : σ.ph = .inputReceived) (hr : refusal c σ.op σ.len = none) :
    Regs.Wf c (sizing c σ) := by
  obtain ⟨hop, hfits⟩ | ⟨hop, -, hfits⟩ := refusal_none_iff.1 hr
  · have hw := wf_setSizes h hph hr (by simp [hop]) hfits
    rw [bitlen_encodedLength] at hw
    rw [sizing_of_enc hop]
    exact wf_emit hw nofun _
  · have hw := wf_setSizes h hph hr (by simp [hop]) hfits
    rw [← ppid_eq_bitlen] at hw
    rw [sizing_of_dec hop]
    exact wf_emit hw nofun _

/-- T5 (R156) but for its event: a buffer that is 0 beyond the codeword. -/
theorem wf_setLayout {buf : Nat} (h : Regs.Wf c σ) (hph : σ.ph = .sizingComputed) (hbuf : buf < 2 ^ σ.n) :
    Regs.Wf c { σ with buf := buf, ph := .layoutBuilt } :=
  { h with
    buf_lt := hbuf
    parity_progress := nofun
    idle_reset := nofun
    accepted := nofun
    sized := fun _ => h.sized (.inl hph)
    unwritten := ⟨nofun, fun _ => h.unwritten.2 (.inl hph)⟩
    done_iff := by simp [h.not_done, hph]
    cleared := fun _ => { h.cleared (by simp [hph]) with }
    refused := fun hs => { h.refused hs with }
    published := nofun }

theorem wf_layout (h : Regs.Wf c σ) (hph : σ.ph = .sizingComputed) : Regs.Wf c (layout c σ) := by
  cases hop : σ.op with
  | enc => rw [layout_of_enc hop]; exact wf_emit (wf_setLayout h hph (place_lt _ _)) nofun _
  | dec => rw [layout_of_dec hop]; exact wf_setLayout h hph (Nat.mod_lt _ (Nat.two_pow_pos _))

/-- The parities `0..j-1` are computed and `j` is the next one (`42_sequencer.md` R157, R158). -/
def Regs.NextParity (σ : Regs) (j : Nat) : Prop :=
  σ.ph = .layoutBuilt ∧ j = 0 ∨ σ.ph = .parityBits ∧ j = σ.k + 1

theorem Regs.NextParity.sizedPhase {j : Nat} (hj : σ.NextParity j) :
    σ.ph = .sizingComputed ∨ σ.ph = .layoutBuilt ∨ σ.ph = .parityBits := by
  obtain ⟨hph, -⟩ | ⟨hph, -⟩ := hj <;> simp [hph]

theorem Regs.NextParity.not_finalized {j : Nat} (hj : σ.NextParity j) : σ.ph ≠ .finalized := by
  obtain ⟨hph, -⟩ | ⟨hph, -⟩ := hj <;> simp [hph]

/-- Before the parity with index `j` only the bits below `j` of `chk` have been written (R23, R30). -/
theorem Regs.Wf.chk_lt_next {j : Nat} (h : Regs.Wf c σ) (hj : σ.NextParity j) : σ.chk < 2 ^ j := by
  obtain ⟨hph, rfl⟩ | ⟨hph, rfl⟩ := hj
  · simp [(h.unwritten.2 (.inr hph)).1]
  · exact (h.parity_progress hph).2

/-- T6 and T7 (R157, R158) but for their event. -/
theorem wf_setParity {j buf chk : Nat} (h : Regs.Wf c σ) (hj : σ.NextParity j) (hr : j < σ.r)
    (hbuf : buf < 2 ^ σ.n) (hchk : chk < 2 ^ (j + 1)) :
    Regs.Wf c { σ with ph := .parityBits, k := j, buf := buf, chk := chk } :=
  { h with
    buf_lt := hbuf
    chk_lt := hchk.trans_le (Nat.pow_le_pow_right (by decide) hr)
    k_range := .inr hr
    parity_progress := fun _ => ⟨hr, hchk⟩
    idle_reset := nofun
    accepted := nofun
    sized := fun _ => h.sized hj.sizedPhase
    unwritten := ⟨nofun, by simp⟩
    done_iff := by simp [h.not_done hj.not_finalized]
    cleared := fun _ => { h.cleared hj.not_finalized with }
    refused := fun hs => { h.refused hs with }
    published := nofun }

theorem wf_parityAction {j : Nat} (h : Regs.Wf c σ) (hj : σ.NextParity j) (hr : j < σ.r) :
    Regs.Wf c (parityAction c j σ) := by
  have hchk : ∀ v, setBit σ.chk j v < 2 ^ (j + 1) := fun v =>
    setBit_lt ((h.chk_lt_next hj).trans (Nat.pow_lt_pow_right (by decide) (Nat.lt_succ_self j))) (Nat.lt_succ_self j)
  have hpos : 2 ^ j ≤ σ.n := (lt_bitlen_iff σ.n j).1 (h.r_eq ▸ hr)
  cases hop : σ.op with
  | enc =>
    rw [parityAction_of_enc hop]
    exact wf_emit (wf_setParity h hj hr (memWrite_lt h.buf_lt Nat.one_le_two_pow hpos) (hchk _)) nofun _
  | dec =>
    rw [parityAction_of_dec hop]
    exact wf_emit (wf_setParity h hj hr h.buf_lt (hchk _)) nofun _

/-- T8 and T9 (R159, R160) but for their events: results that fit their lengths, and the syndrome's consequences. -/
theorem wf_publish {j cw data dataLen s errpos : Nat} (h : Regs.Wf c σ) (hj : σ.NextParity j)
    (hcw : cw < 2 ^ σ.n) (hdata : data < 2 ^ dataLen) (hlen : dataLen + σ.r = σ.n) (hs : s < 2 ^ σ.r)
    (he : ∀ nMax, c.nMax = some nMax → errpos < 2 ^ sw nMax) :
    Regs.Wf c (σ.publish cw data dataLen s errpos) :=
  have hok : σ.status = .ok := (h.cleared hj.not_finalized).status
  { h with
    parity_progress := nofun
    idle_reset := nofun
    accepted := nofun
    sized := by simp [Regs.publish]
    unwritten := ⟨nofun, by simp [Regs.publish]⟩
    done_iff := ⟨fun _ => rfl, fun _ => rfl⟩
    cleared := fun hf => absurd rfl hf
    refused := by simp only [Regs.publish, hok]; split <;> simp
    published := fun _ _ => ⟨rfl, rfl, rfl, hlen⟩
    resCw_lt := hcw
    resData_lt := hdata
    resChk_lt := h.chk_lt
    resSyndrome_lt := hs
    resErrpos_lt := he
    fErr_iff := by simp [Regs.publish, flagErr]
    fCorr_iff := flagCorr_locate_iff
    uncorrectable_iff := by simp [Regs.publish, hok] }

theorem wf_finalizeEnc {j : Nat} (h : Regs.Wf c σ) (hj : σ.NextParity j) (hop : σ.op = .enc) :
    Regs.Wf c (finalizeEnc c σ) := by
  obtain ⟨hvalid, hn⟩ := h.sized hj.sizedPhase
  rw [hop] at hn hvalid
  have hlen : σ.len + σ.r = σ.n := by rw [h.r_eq, hn, bitlen_encodedLength]
  have hfits : fitsCapacity c σ.len = true := fitsCapacity_mono h.n_fits (by omega)
  have hdata : σ.inb < 2 ^ σ.len := heldLen_of_fits hfits ▸ h.inb_lt
  rw [finalizeEnc_eq_publish]
  exact wf_emit (wf_publish h hj h.buf_lt hdata hlen (Nat.two_pow_pos _) fun _ _ => Nat.two_pow_pos _) nofun _

theorem wf_finalizeDec {j : Nat} (h : Regs.Wf c σ) (hj : σ.NextParity j) : Regs.Wf c (finalizeDec c σ) := by
  have hcount : (dataPositions σ.n).length + σ.r = σ.n := h.r_eq ▸ dataPositions_length σ.n
  have hlen : σ.n - σ.r + σ.r = σ.n := by omega
  have hdata : ofBits (extract (correct σ.buf σ.located) σ.n) < 2 ^ (σ.n - σ.r) := by
    have hlt := ofBits_lt (extract (correct σ.buf σ.located) σ.n)
    rwa [extract_length, show (dataPositions σ.n).length = σ.n - σ.r by omega] at hlt
  have hs : syndrome σ.chk σ.r < 2 ^ σ.r := syndrome_lt _ _
  rw [finalizeDec_eq_publish]
  exact wf_emit (wf_publish h hj (correct_lt h.buf_lt) hdata hlen hs
    fun nMax hc => errorPosition_lt hc h.n_fits (h.r_eq ▸ hs)) nofun _

theorem wf_finalize {j : Nat} (h : Regs.Wf c σ) (hj : σ.NextParity j) : Regs.Wf c (finalize c σ) := by
  cases hop : σ.op with
  | enc => rw [finalize_of_enc hop]; exact wf_finalizeEnc h hj hop
  | dec => rw [finalize_of_dec hop]; exact wf_finalizeDec h hj

/-- Every edge keeps the good states, whatever ports the host drives. -/
theorem wf_tick {p : Pins} {τ : Regs} (h : Regs.Wf c σ) (hp : pinsOnPort c p = true) (ht : tick c p σ = some τ) :
    Regs.Wf c τ := by
  have hlen : lenOnPort c p.cmdLen = true := by
    rw [pinsOnPort, Bool.and_eq_true] at hp
    exact hp.1
  obtain ⟨-, rfl⟩ | ⟨-, hrow⟩ := tick_cases ht
  · exact wf_reset c
  · obtain ⟨-, ⟨-, rfl⟩ | ⟨-, rfl⟩⟩ | ⟨hph, ⟨cond, hr, rfl⟩ | ⟨hr, rfl⟩⟩ | ⟨hph, rfl⟩ |
      ⟨hph, ⟨hr, rfl⟩ | ⟨-, hop, rfl⟩⟩ | ⟨hph, ⟨hk, rfl⟩ | ⟨-, rfl⟩⟩ := hrow
    · exact h
    · exact wf_accept hlen
    · exact wf_refuse h hph hr
    · exact wf_sizing h hph hr
    · exact wf_layout h hph
    · exact wf_parityAction h (.inl ⟨hph, rfl⟩) hr
    · exact wf_finalizeEnc h (.inl ⟨hph, rfl⟩) hop
    · exact wf_parityAction h (.inr ⟨hph, rfl⟩) hk
    · exact wf_finalize h (.inr ⟨hph, rfl⟩)

/-! ### Whole operations and steps -/

/-- From the layout on, each parity action of an operation leaves a good state in which the next one is due. -/
theorem wf_parityActions_upto (h : Regs.Wf c σ) (hph : σ.ph = .layoutBuilt) {m : Nat} (hm : m ≤ σ.r) :
    Regs.Wf c ((List.range m).foldl (fun τ j => parityAction c j τ) σ) ∧
      ((List.range m).foldl (fun τ j => parityAction c j τ) σ).NextParity m ∧
      ((List.range m).foldl (fun τ j => parityAction c j τ) σ).r = σ.r := by
  induction m with
  | zero => exact ⟨h, .inl ⟨hph, rfl⟩, rfl⟩
  | succ m ih =>
    obtain ⟨hw, hnext, hr⟩ := ih (by omega)
    rw [List.range_succ, List.foldl_append, List.foldl_cons, List.foldl_nil]
    obtain ⟨hph', hk, -, hr', -, -⟩ := parityAction_frame (c := c) m
      ((List.range m).foldl (fun τ j => parityAction c j τ) σ)
    exact ⟨wf_parityAction hw hnext (by omega), .inr ⟨hph', by rw [hk]⟩, hr'.trans hr⟩

theorem sizing_ph (c : Params) (σ : Regs) : (sizing c σ).ph = .sizingComputed := by
  cases hop : σ.op <;> simp [sizing_of_enc, sizing_of_dec, hop]

theorem layout_ph (c : Params) (σ : Regs) : (layout c σ).ph = .layoutBuilt := by
  cases hop : σ.op <;> simp [layout_of_enc, layout_of_dec, hop]

/-- A whole operation ends in a good state, if the port carries its length. -/
theorem wf_operation {op : Op} {len bits : Nat} (hlen : lenOnPort c len = true) :
    Regs.Wf c (operation c op len bits) := by
  have haccept : Regs.Wf c (accept c op len bits) := wf_accept hlen
  have hph : (accept c op len bits).ph = .inputReceived := by simp [accept]
  have href : refusal c (accept c op len bits).op (accept c op len bits).len = refusal c op len := by simp [accept]
  unfold operation
  cases hr : refusal c op len with
  | some cond => exact wf_refuse haccept hph (href.trans hr)
  | none =>
    have hsizing := wf_sizing haccept hph (href.trans hr)
    have hlayout := wf_layout hsizing (sizing_ph _ _)
    obtain ⟨hw, hnext, -⟩ := wf_parityActions_upto hlayout (layout_ph _ _) le_rfl
    exact wf_finalize hw hnext

theorem wellFormed_iff {i : Instr} :
    WellFormed c i ↔ lenOnPort c (instrLen i) = true ∧ bitsOnPort c (instrBits i) = true := by
  rw [WellFormed, Instr.wellFormed, Bool.and_eq_true]

@[simp] theorem instrLen_instrOfFields (op : Op) (len bits : Nat) : instrLen (instrOfFields op len bits) = len := by
  cases op <;> rfl

@[simp] theorem instrBits_instrOfFields (op : Op) (len bits : Nat) :
    instrBits (instrOfFields op len bits) = bits := by
  cases op <;> rfl

/-- The decoder answers commands the port carries (`30_encoding.md` R71, R72). -/
theorem decode_wellFormed {w : Nat} {i : Instr} (h : decode c w = .ok i) : WellFormed c i := by
  unfold decode at h
  split at h
  · cases h
  · rename_i nMax hc
    split at h
    · rename_i hw
      cases h
      have hlen : wordLen nMax w < 2 ^ lw nMax := Nat.mod_lt _ (Nat.two_pow_pos _)
      have hbits : wordBits nMax w < 2 ^ nMax := Nat.div_lt_of_lt_mul (by rwa [← Nat.pow_add])
      simp [wellFormed_iff, lenOnPort, bitsOnPort, hc, hlen, hbits]
    · cases h

theorem readFields_wellFormed {op : Op} {len bits : Nat} {i : Instr} (h : readFields c op len bits = .ok i) :
    WellFormed c i := by
  unfold readFields at h
  split at h
  · cases h; assumption
  · cases h

theorem readResult_wellFormed {op : Op} {d : BitString} {i : Instr} (h : readResult c σ op d = .ok i) :
    WellFormed c i := by
  unfold readResult at h
  split at h
  · exact readFields_wellFormed h
  · cases h

/-- Whatever form the host gives a command, the port carries what is read. -/
theorem readCommand_wellFormed {f : CmdForm} {i : Instr} (h : readCommand c σ f = .ok i) : WellFormed c i := by
  cases f with
  | word w =>
    simp only [readCommand] at h
    split at h
    · cases h; exact decode_wellFormed ‹_›
    · cases h
  | fields op len bits => exact readFields_wellFormed h
  | prevCodeword op flips => exact readResult_wellFormed h
  | prevData op => exact readResult_wellFormed h

theorem pinsOnPort_quietPins (c : Params) : pinsOnPort c quietPins = true := by
  cases hc : c.nMax <;> simp [pinsOnPort, quietPins, lenOnPort, bitsOnPort, hc]

/-- Settles O51: by the cases of a step, each an edge (`wf_tick`) or a whole operation (`wf_operation`). -/
theorem stepKeepsTheGoodState : Obligations.StepKeepsTheGoodState := by
  rintro s t ⟨hparams, hregs⟩ ht
  obtain ⟨-, τ, hτ, rfl⟩ | ⟨q, rest, τ, -, hq, hτ, rfl⟩ | ⟨f, rest, τ, -, -, hτ, rfl⟩ |
    ⟨f, rest, i, -, -, hi, rfl⟩ := step_next ht
  · exact ⟨hparams, wf_tick hregs (pinsOnPort_quietPins _) hτ⟩
  · exact ⟨hparams, wf_tick hregs hq hτ⟩
  · exact ⟨hparams, wf_tick hregs (pinsOnPort_quietPins _) hτ⟩
  · exact ⟨hparams, wf_operation (wellFormed_iff.1 (readCommand_wellFormed hi)).1⟩

/-- Settles O50. -/
theorem resetIsGood : Obligations.ResetIsGood :=
  ⟨fun c _ hc => ⟨hc, wf_reset c⟩, fun _ h => by cases h; decide, wf_reset _⟩

end Sys2Proof.Machine
end

section
/-! PROOFS. What the trace and the two parameters `TRACE_EN` and `ERRPOS_UNCORR` show in (`10_state.md` R39, R41), and
what a step and an operation leave unchanged (R40, R45). -/

namespace Sys2Proof.Machine

variable {c : Params} {σ : Regs}

/-! ### Frames -/

/-- Settles O9: by the cases of a step and of an instruction. -/
theorem instanceAndHostAreUntouched : Obligations.InstanceAndHostAreUntouched := by
  refine ⟨fun s t ht => ?_, fun i s t ht => ?_⟩
  · obtain ⟨-, τ, -, rfl⟩ | ⟨q, rest, τ, hh, -, -, rfl⟩ | ⟨f, rest, τ, -, -, -, rfl⟩ |
      ⟨f, rest, i, hh, -, -, rfl⟩ := step_next ht
    · exact ⟨rfl, .inl rfl⟩
    · exact ⟨rfl, .inr (by rw [hh]; rfl)⟩
    · exact ⟨rfl, .inl rfl⟩
    · exact ⟨rfl, .inr (by rw [hh]; rfl)⟩
  · obtain ⟨-, rfl⟩ | ⟨-, τ, -, rfl⟩ := exec_next ht <;> exact ⟨rfl, rfl⟩

/-- Settles O53: from a block that is not busy an instruction leaves the registers of `operation`, which takes the command
and the parameters alone. -/
theorem nothingSurvivesAnOperation : Obligations.NothingSurvivesAnOperation := by
  intro i s s' t t' hb hb' hparams ht ht'
  rw [exec_eq_perform, perform_not_busy hb] at ht
  rw [exec_eq_perform, perform_not_busy hb', ← hparams] at ht'
  cases ht
  cases ht'
  rfl

/-! ### The trace (R41, `42_sequencer.md` R172) -/

/-- A transition that reads nothing of the trace and writes nothing to it but the events it appends: beside these events
it does what it does without the port. -/
def AppendsOnly (f : Params → Regs → Regs) (c : Params) (σ : Regs) : Prop :=
  ∃ evs, ∀ en tr, f { c with traceEn := en } { σ with trace := tr } =
    emit { c with traceEn := en } evs { f { c with traceEn := false } σ with trace := tr }

theorem refuse_appendsOnly (cond : Condition) : AppendsOnly (refuse · cond) c σ :=
  ⟨[.refused cond], fun _ _ => by cases cond <;> rfl⟩

theorem sizing_appendsOnly : AppendsOnly sizing c σ := by
  cases hop : σ.op with
  | enc =>
    exact ⟨[.sizing σ.len (candidates σ.len), .parityPositions (parityPositions (redundancy σ.len))],
      fun _ tr => by rw [sizing_of_enc hop, sizing_of_enc (σ := { σ with trace := tr }) hop]; rfl⟩
  | dec =>
    exact ⟨[.parityPositions (parityPositions (ppid σ.len))],
      fun _ tr => by rw [sizing_of_dec hop, sizing_of_dec (σ := { σ with trace := tr }) hop]; rfl⟩

theorem emit_nil (c : Params) (σ : Regs) : emit c [] σ = σ := by
  unfold emit
  split
  · rw [List.append_nil]
  · rfl

theorem layout_appendsOnly : AppendsOnly layout c σ := by
  cases hop : σ.op with
  | enc =>
    exact ⟨[.layout σ.n (layoutCells (place σ.inb σ.n) σ.n)],
      fun _ tr => by rw [layout_of_enc hop, layout_of_enc (σ := { σ with trace := tr }) hop]; rfl⟩
  | dec =>
    exact ⟨[], fun _ tr => by rw [emit_nil, layout_of_dec hop, layout_of_dec (σ := { σ with trace := tr }) hop]⟩

theorem parityAction_appendsOnly (j : Nat) : AppendsOnly (parityAction · j) c σ := by
  cases hop : σ.op with
  | enc =>
    refine ⟨[parityEvent σ.buf σ.n j], fun _ tr => ?_⟩
    beta_reduce
    rw [parityAction_of_enc hop, parityAction_of_enc (σ := { σ with trace := tr }) hop]; rfl
  | dec =>
    refine ⟨[parityEvent σ.buf σ.n j], fun _ tr => ?_⟩
    beta_reduce
    rw [parityAction_of_dec hop, parityAction_of_dec (σ := { σ with trace := tr }) hop]; rfl

theorem finalizeEnc_appendsOnly : AppendsOnly finalizeEnc c σ :=
  ⟨[.finalCodeword (toBits σ.n σ.buf)], fun _ _ => rfl⟩

theorem finalizeDec_appendsOnly : AppendsOnly finalizeDec c σ :=
  ⟨σ.decodeEvents, fun _ _ => by rw [finalizeDec_eq_publish, finalizeDec_eq_publish]; rfl⟩

theorem finalize_appendsOnly : AppendsOnly finalize c σ := by
  cases hop : σ.op with
  | enc =>
    obtain ⟨evs, h⟩ := finalizeEnc_appendsOnly (c := c) (σ := σ)
    exact ⟨evs, fun en tr => by rw [finalize_of_enc hop, finalize_of_enc (σ := { σ with trace := tr }) hop, h]⟩
  | dec =>
    obtain ⟨evs, h⟩ := finalizeDec_appendsOnly (c := c) (σ := σ)
    exact ⟨evs, fun en tr => by rw [finalize_of_dec hop, finalize_of_dec (σ := { σ with trace := tr }) hop, h]⟩

/-- What an edge within an operation does to the trace: the same events are appended to every trace, where the port
exists, and the other registers are the same. -/
def EdgeAppends (c : Params) (p : Pins) (σ : Regs) : Prop :=
  ∃ (evs : List Event) (ρ : Regs), ∀ en tr, tick { c with traceEn := en } p { σ with trace := tr } =
    some (emit { c with traceEn := en } evs { ρ with trace := tr })

theorem AppendsOnly.edgeAppends {f : Params → Regs → Regs} {p : Pins} (hf : AppendsOnly f c σ)
    (hrow : ∀ en tr, tick { c with traceEn := en } p { σ with trace := tr } =
      some (f { c with traceEn := en } { σ with trace := tr })) : EdgeAppends c p σ :=
  let ⟨evs, hevs⟩ := hf
  ⟨evs, _, fun en tr => (hrow en tr).trans (congrArg some (hevs en tr))⟩

theorem edgeAppends_of_busy {p : Pins} {τ : Regs} (hb : busy σ = true) (hrst : p.rst = false)
    (h : tick c p σ = some τ) : EdgeAppends c p σ := by
  obtain ⟨hrst', -⟩ | ⟨-, ⟨hph, -⟩ | ⟨hph, ⟨cond, hr, -⟩ | ⟨hr, -⟩⟩ | ⟨hph, -⟩ |
    ⟨hph, ⟨hr, -⟩ | ⟨hr, hop, -⟩⟩ | ⟨hph, ⟨hk, -⟩ | ⟨hk, -⟩⟩⟩ := tick_cases h
  · rw [hrst] at hrst'; cases hrst'
  · rw [not_busy_iff.2 hph] at hb; cases hb
  · exact (refuse_appendsOnly cond).edgeAppends fun _ _ => tick_inputReceived_invalid hrst hph hr
  · exact sizing_appendsOnly.edgeAppends fun _ _ => tick_inputReceived_valid hrst hph hr
  · exact layout_appendsOnly.edgeAppends fun _ _ => tick_sizingComputed hrst hph
  · exact (parityAction_appendsOnly 0).edgeAppends fun _ _ => tick_layoutBuilt hrst hph hr
  · exact finalizeEnc_appendsOnly.edgeAppends fun _ _ => tick_layoutBuilt_zero hrst hph hr hop
  · exact (parityAction_appendsOnly (σ.k + 1)).edgeAppends fun _ _ => tick_parityBits hrst hph hk
  · exact finalize_appendsOnly.edgeAppends fun _ _ => tick_parityBits_last hrst hph hk

/-- Settles O54: an edge within an operation appends its events where the port exists, and nothing elsewhere. -/
theorem traceIsAppendOnly : Obligations.TraceIsAppendOnly := by
  intro c p σ τ hb hrst h
  obtain ⟨evs, ρ, hall⟩ := edgeAppends_of_busy hb hrst h
  obtain rfl : τ = emit c evs { ρ with trace := σ.trace } := Option.some.inj (h.symm.trans (hall c.traceEn σ.trace))
  rw [emit_trace]
  cases c.traceEn
  · exact ⟨[], by simp⟩
  · exact ⟨evs, rfl⟩

/-- Emitting shows in the trace alone. -/
theorem emit_sameButTrace (c c' : Params) (evs : List Event) (σ : Regs) (tr : List Event) :
    ∃ tr', emit c' evs { σ with trace := tr } = { emit c evs σ with trace := tr' } := by
  unfold emit
  split <;> split <;> exact ⟨_, rfl⟩

theorem accept_sameButTrace (c : Params) (en : Bool) (op : Op) (len bits : Nat) :
    ∃ tr', accept { c with traceEn := en } op len bits = { accept c op len bits with trace := tr' } :=
  emit_sameButTrace c { c with traceEn := en } [.input op len (toBits (heldLen c len) (latch c len bits))]
    { Regs.reset with ph := .inputReceived, op := op, len := len, inb := latch c len bits } []

/-- Settles O56: reset and hold do not look at the trace, acceptance starts a new one, and an edge within an operation
appends to it. -/
theorem traceInfluencesNothing : Obligations.TraceInfluencesNothing := by
  intro c en p σ τ tr h
  cases hrst : p.rst
  case true =>
    obtain rfl : Regs.reset = τ := Option.some.inj ((tick_rst hrst).symm.trans h)
    exact ⟨[], tick_rst hrst⟩
  cases hb : busy σ
  case true =>
    obtain ⟨evs, ρ, hall⟩ := edgeAppends_of_busy hb hrst h
    obtain rfl : τ = emit c evs { ρ with trace := σ.trace } := Option.some.inj (h.symm.trans (hall c.traceEn σ.trace))
    obtain ⟨tr', htr⟩ := emit_sameButTrace c { c with traceEn := en } evs { ρ with trace := σ.trace } tr
    exact ⟨tr', (hall en tr).trans (congrArg some htr)⟩
  have hph := not_busy_iff.1 hb
  cases hv : p.cmdValid
  case false =>
    obtain rfl : σ = τ := Option.some.inj ((tick_hold hrst hv hph).symm.trans h)
    exact ⟨tr, tick_hold hrst hv hph⟩
  case true =>
    obtain rfl : accept c p.cmdOp p.cmdLen p.cmdBits = τ := Option.some.inj ((tick_accept hrst hv hph).symm.trans h)
    obtain ⟨tr', htr⟩ := accept_sameButTrace c en p.cmdOp p.cmdLen p.cmdBits
    exact ⟨tr', (tick_accept (σ := { σ with trace := tr }) hrst hv hph).trans (congrArg some htr)⟩

/-! ### `ERRPOS_UNCORR` (R39) -/

/-- The registers of a valid command before T8 or T9. -/
def beforeFinalize (c : Params) (op : Op) (len bits : Nat) : Regs :=
  parityActions c (layout c (sizing c (accept c op len bits)))

/-- None of the transitions before T8 and T9 uses the parameter. -/
theorem beforeFinalize_setErrpos (c : Params) (e : ErrposUncorr) (op : Op) (len bits : Nat) :
    beforeFinalize { c with errpos := e } op len bits = beforeFinalize c op len bits := rfl

theorem operation_of_refused {op : Op} {len bits : Nat} {cond : Condition} (hr : refusal c op len = some cond) :
    operation c op len bits = refuse c cond (accept c op len bits) := by
  simp [operation, hr]

theorem operation_of_valid {op : Op} {len bits : Nat} (hr : refusal c op len = none) :
    operation c op len bits = finalize c (beforeFinalize c op len bits) := by
  simp [operation, hr, beforeFinalize]

theorem sizing_frame (c : Params) (σ : Regs) : (sizing c σ).op = σ.op ∧ (sizing c σ).status = σ.status := by
  cases hop : σ.op <;> simp [sizing_of_enc, sizing_of_dec, hop]

theorem layout_frame (c : Params) (σ : Regs) : (layout c σ).op = σ.op ∧ (layout c σ).status = σ.status := by
  cases hop : σ.op <;> simp [layout_of_enc, layout_of_dec, hop]

theorem parityAction_status (c : Params) (j : Nat) (σ : Regs) : (parityAction c j σ).status = σ.status := by
  cases hop : σ.op <;> simp [parityAction_of_enc, parityAction_of_dec, hop]

theorem parityActions_frame (c : Params) (σ : Regs) :
    (parityActions c σ).op = σ.op ∧ (parityActions c σ).status = σ.status := by
  refine List.foldlRecOn (List.range σ.r) _ (motive := fun τ : Regs => τ.op = σ.op ∧ τ.status = σ.status) ⟨rfl, rfl⟩ ?_
  rintro τ ⟨hop, hstatus⟩ j -
  obtain ⟨-, -, hop', -⟩ := parityAction_frame (c := c) j τ
  exact ⟨hop'.trans hop, (parityAction_status c j τ).trans hstatus⟩

/-- No transition before T8 and T9 touches the operation or the status. -/
theorem beforeFinalize_frame (c : Params) (op : Op) (len bits : Nat) :
    (beforeFinalize c op len bits).op = op ∧ (beforeFinalize c op len bits).status = .ok := by
  simp [beforeFinalize, parityActions_frame, layout_frame, sizing_frame, accept]

/-- Where the syndrome is a position, or 0, the parameter is not used (`41_decoder.md` R127). -/
theorem errorPosition_setErrpos {s n : Nat} (e : ErrposUncorr) (h : s ≤ n) :
    errorPosition { c with errpos := e } (locate s n) = errorPosition c (locate s n) := by
  rw [locate, if_pos h]
  split <;> rfl

theorem locate_of_lt {s n : Nat} (h : n < s) : locate s n = .uncorrectable s := by
  rw [locate, if_neg (by omega), if_neg (by omega)]

/-- T9 uses the parameter for the error position alone. -/
theorem finalizeDec_setErrpos (c : Params) (e : ErrposUncorr) (σ : Regs) :
    finalizeDec { c with errpos := e } σ =
      emit c σ.decodeEvents (σ.publishDecode (errorPosition { c with errpos := e } σ.located)) :=
  finalizeDec_eq_publish _ _

/-- The error position shows in `res_errpos` alone. -/
theorem emit_publishDecode (c : Params) (evs : List Event) (σ : Regs) (v w : Nat) :
    emit c evs (σ.publishDecode v) = { emit c evs (σ.publishDecode w) with resErrpos := v } := by
  unfold emit
  split <;> rfl

/-- An operation does not depend on the parameter, or it ends in `UncorrectableSyndrome` and shows the parameter's value
at the syndrome in `res_errpos`. -/
theorem operation_errpos_cases (c : Params) (op : Op) (len bits : Nat) :
    ((operation c op len bits).status ≠ .uncorrectableSyndrome ∧
      ∀ e, operation { c with errpos := e } op len bits = operation c op len bits) ∨
    ((operation c op len bits).status = .uncorrectableSyndrome ∧
      (operation c op len bits).resErrpos = errposUncorr c (operation c op len bits).resSyndrome ∧
      ∀ e, ∃ v, operation { c with errpos := e } op len bits = { operation c op len bits with resErrpos := v }) := by
  cases hr : refusal c op len with
  | some cond =>
    left
    rw [operation_of_refused hr]
    refine ⟨?_, fun e => operation_of_refused hr⟩
    obtain ⟨rfl, -, -⟩ | rfl := refusal_some_cases hr <;> simp [refuse, conditionStatus]
  | none =>
    obtain ⟨hop, hok⟩ := beforeFinalize_frame c op len bits
    have hset : ∀ e, operation { c with errpos := e } op len bits =
        finalize { c with errpos := e } (beforeFinalize c op len bits) := fun e => by
      rw [operation_of_valid (c := { c with errpos := e }) (op := op) hr, beforeFinalize_setErrpos]
    rw [operation_of_valid hr]
    generalize beforeFinalize c op len bits = σ at hop hok hset ⊢
    cases op with
    | enc =>
      left
      rw [finalize_of_enc hop]
      refine ⟨by simp [finalizeEnc, hok], fun e => ?_⟩
      rw [hset, finalize_of_enc hop]
      rfl
    | dec =>
      simp only [finalize_of_dec hop, finalizeDec_setErrpos] at hset
      rw [finalize_of_dec hop, finalizeDec_eq_publish]
      rcases le_or_gt (syndrome σ.chk σ.r) σ.n with hle | hlt
      · left
        refine ⟨by simp [Regs.publishDecode, Regs.publish, hok, not_lt.2 hle], fun e => ?_⟩
        rw [hset, Regs.located, errorPosition_setErrpos e hle]
      · right
        refine ⟨by simp [Regs.publishDecode, Regs.publish, hlt], ?_, fun e => ?_⟩
        · simp [Regs.publishDecode, Regs.publish, Regs.located, locate_of_lt hlt, errorPosition]
        · exact ⟨_, (hset e).trans (emit_publishDecode _ _ _ _ _)⟩

/-- Settles O57: by the two cases of `operation_errpos_cases`, and for the last clause by the form of the parameter. -/
theorem errposParameterShowsInErrposOnly : Obligations.ErrposParameterShowsInErrposOnly := by
  intro c e op len bits
  obtain ⟨hne, heq⟩ | ⟨huncorr, hval, hset⟩ := operation_errpos_cases c op len bits
  · exact ⟨⟨_, heq e⟩, fun _ => heq e, fun h => absurd h hne⟩
  · refine ⟨hset e, fun h => absurd huncorr h, fun _ => ?_⟩
    rw [hval]
    exact ⟨fun h => by simp [errposUncorr, h], fun h => by simp [errposUncorr, h],
      fun h hc => by simp [errposUncorr, onErrpos, h, hc], fun h nMax hc => by simp [errposUncorr, onErrpos, h, hc]⟩

end Sys2Proof.Machine
end

section
/-! PROOFS. The position space (`20_memory.md`): where the data positions stand (R54), and that the order of the parity
computations and of the checks is not observable (R61). -/

namespace Sys2Proof.Machine

/-! ### The data positions (R54) -/

/-- Not more positions of `1..n` are powers of two than there are positions. -/
theorem bitlen_le_self (n : Nat) : bitlen n ≤ n := (Nat.le_add_left _ _).trans_eq (dataPositions_length n)

/-- `R(m)` is at most `m + 1` (`40_encoder.md` R91). -/
theorem redundancy_le_succ (m : Nat) : redundancy m ≤ m + 1 :=
  redundancy_le_iff.2 ((sizeOk_iff _ _).1 (sizeOk_bound m))

/-- `j + R(j)` is no power of two (`40_encoder.md` R93): if it were `2^k`, already `k` parity bits would be enough. -/
theorem isParityPos_encodedLength (j : Nat) : isParityPos (j + redundancy j) = false := by
  refine Bool.eq_false_iff.2 fun hp => ?_
  obtain ⟨k, hk⟩ := (isParityPos_iff _).1 hp
  have hlt : k < redundancy j := by
    rw [← bitlen_encodedLength j, lt_bitlen_iff]
    exact hk.ge
  have hle : redundancy j ≤ k := redundancy_le_iff.2 (by omega)
  omega

/-- A data position `i` is `j + R(j)` for the number `j` of data positions up to it. -/
theorem redundancy_sub_bitlen {i : Nat} (h1 : 1 ≤ i) (hp : isParityPos i = false) :
    redundancy (i - bitlen i) = bitlen i := by
  have hcount : bitlen i ≤ i := bitlen_le_self i
  have hlt : i < 2 ^ bitlen i := lt_two_pow_bitlen i
  refine le_antisymm (redundancy_le_iff.2 (by omega)) (not_lt.1 fun hless => ?_)
  obtain ⟨b, hb⟩ : ∃ b, bitlen i = b + 1 := ⟨bitlen i - 1, by omega⟩
  have hge : 2 ^ b ≤ i := (lt_bitlen_iff i b).1 (by omega)
  have hfit : i - bitlen i + b + 1 ≤ 2 ^ b := redundancy_le_iff.1 (by omega)
  obtain rfl : i = 2 ^ b := by omega
  rw [isParityPos_two_pow] at hp
  cases hp

/-- The closed form of R54: `j - 1` data positions stand below `j + R(j)`, which is one itself. -/
theorem dataPos_eq {j : Nat} (hj : 1 ≤ j) : dataPos j = j + redundancy j := by
  have hp : isParityPos (j + redundancy j) = false := isParityPos_encodedLength j
  obtain ⟨tl, hsplit⟩ := dataPositions_split (n := 2 * j + 1) (by omega)
    (by have := redundancy_le_succ j; omega) hp
  have hbelow : (dataPositions (j + redundancy j - 1)).length = j - 1 := by
    have hlen := dataPositions_length (j + redundancy j - 1)
    have hbits := bitlen_succ (j + redundancy j - 1)
    rw [Nat.sub_add_cancel (by omega), hp, bitlen_encodedLength] at hbits
    simp only [Bool.false_eq_true, if_false] at hbits
    omega
  rw [dataPos, hsplit, ← hbelow, List.getD_append_right _ _ _ _ le_rfl]
  simp

/-- `DataPos` reaches every position that is no power of two. -/
theorem dataPos_sub_bitlen {i : Nat} (h1 : 1 ≤ i) (hp : isParityPos i = false) :
    1 ≤ i - bitlen i ∧ dataPos (i - bitlen i) = i := by
  have hred : redundancy (i - bitlen i) = bitlen i := redundancy_sub_bitlen h1 hp
  have hcount : bitlen i ≤ i := bitlen_le_self i
  have hpos : 1 ≤ i - bitlen i := by
    refine Nat.one_le_iff_ne_zero.2 fun h0 => ?_
    rw [h0, redundancy_zero] at hred
    omega
  exact ⟨hpos, by rw [dataPos_eq hpos, hred]; omega⟩

/-- Settles O29: `DataPos(j)` is `j + R(j)`, and `R(j)` is the least `t` of the closed form. -/
theorem dataPositionsInOrder : Obligations.DataPositionsInOrder := by
  refine ⟨fun j hj => ?_, fun i h1 hp => ⟨i - bitlen i, dataPos_sub_bitlen h1 hp⟩, fun j hj => ?_⟩
  · rw [dataPos_eq hj, dataPos_eq (by omega)]
    have hmono : redundancy j ≤ redundancy (j + 1) := redundancy_mono (Nat.le_succ j)
    exact ⟨isParityPos_encodedLength j, by omega⟩
  · rw [dataPos_eq hj]
    exact ⟨redundancy j, rfl, (bitlen_encodedLength j).symm, fun _ => redundancy_le_iff.symm⟩

/-! ### The order of the parities and of the checks (R61, `40_encoder.md` R99) -/

/-- Writes at different indices of a vector commute. -/
theorem setBit_comm {x j k : Nat} {v w : Bool} (h : j ≠ k) :
    setBit (setBit x j v) k w = setBit (setBit x k w) j v :=
  memWrite_comm (i := j + 1) (j := k + 1) (by omega) (by omega) (by omega)

/-- Two parity computations commute: neither reads the position that the other writes. -/
theorem parityUnit_comm (n j k : Nat) (st : Nat × Nat) :
    parityUnit n k (parityUnit n j st) = parityUnit n j (parityUnit n k st) := by
  obtain rfl | hjk := eq_or_ne j k
  · rfl
  have hpos : 2 ^ j ≠ 2 ^ k := fun h => hjk (Nat.pow_right_injective le_rfl h)
  simp only [parityUnit, parityBuf, coverParity_memWrite_ne hjk, coverParity_memWrite_ne hjk.symm]
  rw [memWrite_comm Nat.one_le_two_pow Nat.one_le_two_pow hpos, setBit_comm hjk]

/-- Two checks commute: both read `buf` alone, and they write different bits of `chk`. -/
theorem checkUnit_comm (buf n j k chk : Nat) :
    checkUnit buf n k (checkUnit buf n j chk) = checkUnit buf n j (checkUnit buf n k chk) := by
  obtain rfl | hjk := eq_or_ne j k
  · rfl
  exact setBit_comm hjk

/-- Settles O32: any two of the units commute, so a permutation of them leaves the same. -/
theorem parityOrderDoesNotMatter : Obligations.ParityOrderDoesNotMatter :=
  fun n _ _ hperm =>
    ⟨fun st => hperm.foldl_eq' (fun j _ k _ st => parityUnit_comm n j k st) st,
      fun buf chk => hperm.foldl_eq' (fun j _ k _ chk => checkUnit_comm buf n j k chk) chk⟩

end Sys2Proof.Machine
end

section
/-! PROOFS. The command word (`30_encoding.md` R70 to R76): reading and writing it, the operand bits that are ignored,
and how a host's line reaches the instruction that it spells (R79, R207). -/

namespace Sys2Proof.Machine

variable {c : Params} {σ : Regs}

/-! ### The fields of a word (R72) -/

@[simp] theorem instrOp_instrOfFields (op : Op) (len bits : Nat) : instrOp (instrOfFields op len bits) = op := by
  cases op <;> rfl

@[simp] theorem instrOfFields_fields (i : Instr) : instrOfFields (instrOp i) (instrLen i) (instrBits i) = i := by
  cases i <;> rfl

theorem opCode_lt (op : Op) : opCode op < 2 := by cases op <;> decide

theorem opCode_wordOp (w : Nat) : opCode (wordOp w) = w % 2 := by
  obtain h | h := Nat.mod_two_eq_zero_or_one w <;> simp [wordOp, h, opCode]

theorem wordOp_opCode_add (op : Op) (v : Nat) : wordOp (opCode op + 2 * v) = op := by
  cases op <;> simp [wordOp, opCode]

theorem opCode_add_div_two (op : Op) (v : Nat) : (opCode op + 2 * v) / 2 = v := by
  have := opCode_lt op
  omega

/-- `bits` stands above the other two fields. -/
theorem wordBits_eq (nMax w : Nat) : wordBits nMax w = w / 2 / 2 ^ lw nMax := by
  rw [wordBits, Nat.pow_add, pow_one, Nat.div_div_eq_div_mul]

/-! ### The decoder and the encoder, case by case -/

theorem decode_of_lt {nMax w : Nat} (hc : c.nMax = some nMax) (hw : w < 2 ^ wordWidth nMax) :
    decode c w = .ok (instrOfFields (wordOp w) (wordLen nMax w) (wordBits nMax w)) := by
  simp [decode, hc, hw]

theorem decode_of_ge {nMax w : Nat} (hc : c.nMax = some nMax) (hw : 2 ^ wordWidth nMax ≤ w) :
    decode c w = .error .tooWide := by
  simp [decode, hc, not_lt.2 hw]

theorem decode_of_infinite {w : Nat} (hc : c.nMax = none) : decode c w = .error .noWordFormat := by
  simp [decode, hc]

/-- The word as nested digits: `op` below `len` below `bits`. -/
theorem encode_of_finite {nMax : Nat} (hc : c.nMax = some nMax) (i : Instr) :
    encode c i = some (opCode (instrOp i) + 2 * (instrLen i + 2 ^ lw nMax * instrBits i)) := by
  simp only [encode, hc, Option.some.injEq]
  ring

/-- Only the capacity enters the decoder. -/
theorem decode_congr {c' : Params} (hc : c.nMax = c'.nMax) (w : Nat) : decode c w = decode c' w := by
  rw [decode, decode, hc]

/-- What the port carries where `N_MAX` is finite, field by field (R71). -/
theorem wellFormed_iff_of_finite {nMax : Nat} (hc : c.nMax = some nMax) {i : Instr} :
    WellFormed c i ↔ instrLen i < 2 ^ lw nMax ∧ instrBits i < 2 ^ nMax := by
  simp [wellFormed_iff, lenOnPort, bitsOnPort, hc]

/-- The fields of a well-formed command fill no more than the fixed length (R70). -/
theorem fields_lt_wordWidth {nMax len bits : Nat} (op : Op) (hlen : len < 2 ^ lw nMax) (hbits : bits < 2 ^ nMax) :
    opCode op + 2 * (len + 2 ^ lw nMax * bits) < 2 ^ wordWidth nMax := by
  have hop : opCode op < 2 := opCode_lt op
  have hfields : len + 2 ^ lw nMax * bits < 2 ^ lw nMax * 2 ^ nMax := calc
    len + 2 ^ lw nMax * bits < 2 ^ lw nMax * (bits + 1) := by rw [Nat.mul_succ]; omega
    _ ≤ 2 ^ lw nMax * 2 ^ nMax := Nat.mul_le_mul_left _ hbits
  rw [wordWidth, Nat.pow_add, Nat.pow_add, pow_one, mul_assoc]
  omega

/-- Settles O2: each field of the word is read back as it was written. -/
theorem decodeOfEncodeIsTheCommand : Obligations.DecodeOfEncodeIsTheCommand := by
  intro c nMax i hc hwf
  obtain ⟨hlen, hbits⟩ := (wellFormed_iff_of_finite hc).1 hwf
  have hw := fields_lt_wordWidth (instrOp i) hlen hbits
  refine ⟨_, encode_of_finite hc i, hw, ?_⟩
  have hreadLen : (instrLen i + 2 ^ lw nMax * instrBits i) % 2 ^ lw nMax = instrLen i := by
    rw [Nat.add_mul_mod_self_left, Nat.mod_eq_of_lt hlen]
  have hreadBits : (instrLen i + 2 ^ lw nMax * instrBits i) / 2 ^ lw nMax = instrBits i := by
    rw [Nat.add_mul_div_left _ _ (Nat.two_pow_pos _), Nat.div_eq_of_lt hlen, zero_add]
  rw [decode_of_lt hc hw, wordOp_opCode_add, wordLen, wordBits_eq, opCode_add_div_two, hreadLen, hreadBits,
    instrOfFields_fields]

/-- Settles O3: quotients and remainders by 2 and by `2^LW` put the word together again. -/
theorem encodeOfDecodeIsTheWord : Obligations.EncodeOfDecodeIsTheWord := by
  intro c nMax w hc hw
  have hdecode := decode_of_lt hc hw
  refine ⟨_, hdecode, decode_wellFormed hdecode, ?_⟩
  rw [encode_of_finite hc, instrOp_instrOfFields, instrLen_instrOfFields, instrBits_instrOfFields, opCode_wordOp, wordLen,
    wordBits_eq, Nat.mod_add_div, Nat.mod_add_div]

/-- Settles O1: by the three cases of the decoder. -/
theorem wordSpellsItsFields : Obligations.WordSpellsItsFields := by
  refine ⟨fun c nMax w hc hw => ?_, fun c nMax w hc hw => decode_of_ge hc hw, fun c w hc => decode_of_infinite hc⟩
  rw [decode_of_lt hc hw, wordOp, wordLen, wordBits, Nat.add_comm 1]
  split <;> rfl

/-- Settles O4: each word is read at the widths of its `N_MAX`. -/
theorem wordsOfTheSpecDecode : Obligations.WordsOfTheSpecDecode := by
  refine ⟨?_, ?_, ?_, ?_, ?_⟩ <;> decide

/-! ### The bits at and beyond `len` (R75) -/

theorem latch_congr {len b b' : Nat} (h : ∀ j, j < len → b.testBit j = b'.testBit j) :
    latch c len b = latch c len b' := by
  refine bits_ext fun j => ?_
  simp only [latch, Nat.testBit_mod_two_pow]
  by_cases hj : j < heldLen c len
  · rw [h j (hj.trans_le (heldLen_le c len))]
  · simp [hj]

theorem testBit_latch_of_le {len b j : Nat} (hj : len ≤ j) : (latch c len b).testBit j = false := by
  have hheld : ¬ j < heldLen c len := not_lt.2 ((heldLen_le c len).trans hj)
  simp [latch, Nat.testBit_mod_two_pow, hheld]

/-- Of the operand an operation takes what is latched, and nothing else (`42_sequencer.md` R153). -/
theorem operation_congr {op : Op} {len b b' : Nat} (h : latch c len b = latch c len b') :
    operation c op len b = operation c op len b' := by
  rw [operation, operation, accept, accept, h]

/-- A busy block does not look at the command port (`42_sequencer.md` R163). -/
theorem tick_congr_of_busy {p q : Pins} (hb : busy σ = true) (hrst : p.rst = q.rst) : tick c p σ = tick c q σ := by
  cases hph : σ.ph
  case idle => rw [not_busy_iff.2 (.inl hph)] at hb; cases hb
  case finalized => rw [not_busy_iff.2 (.inr hph)] at hb; cases hb
  all_goals simp only [tick, hrst, hph]

theorem clock_congr_of_busy {p q : Pins} {s : State} (hb : busy s.regs = true) (hrst : p.rst = q.rst) :
    clock p s = clock q s := by
  rw [clock, clock, tick_congr_of_busy hb hrst]

/-- Two commands of the same operation and the same latched operand do the same to every state. -/
theorem exec_congr {op : Op} {len b b' : Nat} {s : State} (h : latch s.params len b = latch s.params len b') :
    exec (instrOfFields op len b) s = exec (instrOfFields op len b') s := by
  rw [exec_eq_perform, exec_eq_perform]
  cases hb : busy s.regs
  · rw [perform_not_busy hb, perform_not_busy hb]
    simp only [instrOp_instrOfFields, instrLen_instrOfFields, instrBits_instrOfFields, operation_congr h]
  · simp only [perform, hb, if_true]
    exact clock_congr_of_busy hb rfl

/-! ### No transition after the acceptance writes `inb` -/

theorem sizing_inb (c : Params) (σ : Regs) : (sizing c σ).inb = σ.inb := by
  cases hop : σ.op <;> simp [sizing_of_enc, sizing_of_dec, hop]

theorem layout_inb (c : Params) (σ : Regs) : (layout c σ).inb = σ.inb := by
  cases hop : σ.op <;> simp [layout_of_enc, layout_of_dec, hop]

theorem parityAction_inb (c : Params) (j : Nat) (σ : Regs) : (parityAction c j σ).inb = σ.inb := by
  cases hop : σ.op <;> simp [parityAction_of_enc, parityAction_of_dec, hop]

theorem parityActions_inb (c : Params) (σ : Regs) : (parityActions c σ).inb = σ.inb :=
  List.foldlRecOn (List.range σ.r) _ (motive := fun τ : Regs => τ.inb = σ.inb) rfl
    fun τ hτ j _ => (parityAction_inb c j τ).trans hτ

theorem finalize_inb (c : Params) (σ : Regs) : (finalize c σ).inb = σ.inb := by
  cases hop : σ.op
  · simp [finalize_of_enc hop, finalizeEnc]
  · simp [finalize_of_dec hop, finalizeDec]

theorem refuse_inb (c : Params) (cond : Condition) (σ : Regs) : (refuse c cond σ).inb = σ.inb := by
  simp [refuse]

theorem accept_inb (c : Params) (op : Op) (len bits : Nat) : (accept c op len bits).inb = latch c len bits := by
  simp [accept]

/-- A whole operation leaves the operand as it was latched. -/
theorem operation_inb (c : Params) (op : Op) (len bits : Nat) : (operation c op len bits).inb = latch c len bits := by
  cases hr : refusal c op len with
  | some cond => rw [operation_of_refused hr, refuse_inb, accept_inb]
  | none =>
    rw [operation_of_valid hr, finalize_inb, beforeFinalize, parityActions_inb, layout_inb, sizing_inb, accept_inb]

/-- Settles O5: the bits at and beyond `len` are not latched. -/
theorem bitsBeyondLenAreIgnored : Obligations.BitsBeyondLenAreIgnored := by
  refine ⟨fun op len b b' s h => exec_congr (latch_congr h), fun op len b s t hb ht j hj => ?_⟩
  rw [exec_eq_perform, perform_not_busy hb] at ht
  cases ht
  rw [State.setRegs_regs, operation_inb, instrLen_instrOfFields]
  exact testBit_latch_of_le hj

/-! ### From the host's line to the instruction (R79, R207) -/

theorem readCommand_word {w : Nat} {i : Instr} (h : decode c w = .ok i) : readCommand c σ (.word w) = .ok i := by
  simp [readCommand, h]

theorem readCommand_fields {i : Instr} (h : WellFormed c i) :
    readCommand c σ (.fields (instrOp i) (instrLen i) (instrBits i)) = .ok i := by
  rw [readCommand, readFields, instrOfFields_fields, if_pos h]

theorem step_command_not_busy {s : State} {f : CmdForm} {rest : List HostAct} {i : Instr}
    (hh : s.host = .command f :: rest) (hb : busy s.regs = false) (hi : readCommand s.params s.regs f = .ok i) :
    step s = exec i { s with host := rest } := by
  simp [step, hh, stepCommand, hb, hi]

theorem step_command_busy {s : State} {f : CmdForm} {rest : List HostAct} (hh : s.host = .command f :: rest)
    (hb : busy s.regs = true) : step s = clock quietPins s := by
  simp [step, hh, stepCommand, hb]

/-- Settles O6: by the two branches of a program line; a word is read by the decoder. -/
theorem stepRunsTheDecodedCommand : Obligations.StepRunsTheDecodedCommand :=
  ⟨fun _ _ _ _ hh hb hi => step_command_not_busy hh hb hi,
    fun _ _ _ _ hh hb hi => step_command_not_busy hh hb (readCommand_word hi),
    fun _ _ _ hh hb => step_command_busy hh hb⟩

/-- What `decodeTableWord` reads the decoder reads under the reference parameters. -/
theorem decode_of_decodeTableWord {nbits w : Nat} {i : Instr} (h : decodeTableWord nbits w = some i) :
    decode Params.reference (w % 2 ^ nbits) = .ok i := by
  unfold decodeTableWord at h
  split at h
  · cases h; assumption
  · cases h

/-- A table word as the host presents it spells the same command wherever the port carries it. -/
theorem readCommand_tableCommand {nbits w : Nat} {i : Instr} (h : decodeTableWord nbits w = some i)
    (hwf : WellFormed c i) : readCommand c σ (tableCommand c nbits w) = .ok i := by
  by_cases hc : c.nMax = Params.reference.nMax
  · rw [tableCommand, if_pos hc]
    exact readCommand_word ((decode_congr hc _).trans (decode_of_decodeTableWord h))
  · simp only [tableCommand, if_neg hc, h]
    exact readCommand_fields hwf

/-- Placing a word in a block that is not busy leaves the registers. -/
theorem withFetchWord_not_busy {s : State} (hb : busy s.regs = false) (nbits w : Nat) :
    s.withFetchWord nbits w = { s with host := .command (tableCommand s.params nbits w) :: s.host } := by
  simp [State.withFetchWord, hb]

/-- Settles O7: the line that `withFetchWord` lists spells the command of the word. -/
theorem fetchWordRunsNext : Obligations.FetchWordRunsNext := by
  intro s nbits w i hb h hwf
  rw [withFetchWord_not_busy hb]
  exact step_command_not_busy rfl hb (readCommand_tableCommand h hwf)

end Sys2Proof.Machine
end

section
/-! PROOFS. `SIZE` (`40_encoder.md` R90 to R93): the redundancy, the tested candidates and the encoder's lengths. -/

namespace Sys2Proof.Machine

/-- Settles O23: the candidates that pass are those from `R(m)` on, and `m + 1` passes. -/
theorem redundancyIsTheLeastThatFits : Obligations.RedundancyIsTheLeastThatFits :=
  fun m => ⟨redundancy_le_succ m, fun _ => redundancy_le_iff.symm⟩

/-- Of the candidates up to `R(m)` the last alone passes. -/
theorem sizeOk_of_le_redundancy {m r : Nat} (h : r ≤ redundancy m) : sizeOk m r = decide (r = redundancy m) := by
  rw [sizeOk, decide_eq_decide, ← redundancy_le_iff]
  exact ⟨h.antisymm, fun heq => heq.ge⟩

/-- Settles O24: the list is the range `0..R(m)`, and the test is `sizeOk_of_le_redundancy`. -/
theorem candidatesAreTheTestedOnes : Obligations.CandidatesAreTheTestedOnes := by
  refine fun m => ⟨by simp [candidates], fun r hr => ?_⟩
  simp [candidates, Nat.lt_succ_of_le hr, sizeOk_of_le_redundancy hr]

/-- One parity bit alone is never enough: with `m ≥ 1` there are two, with `m = 0` none is needed. -/
theorem redundancy_ne_one (m : Nat) : redundancy m ≠ 1 := by
  intro h
  have hfit : m + 1 + 1 ≤ 2 ^ 1 := redundancy_le_iff.1 h.le
  obtain rfl : m = 0 := by omega
  cases redundancy_zero.symm.trans h

/-- Settles O25: `R(m) = r` says that `r` passes and `r - 1` does not. -/
theorem redundancyTableRow : Obligations.RedundancyTableRow := by
  refine ⟨redundancy_zero, redundancy_ne_one, fun m r hr => ?_⟩
  obtain ⟨q, rfl⟩ : ∃ q, r = q + 1 := ⟨r - 1, by omega⟩
  have hpasses : redundancy m ≤ q + 1 ↔ m + (q + 1) + 1 ≤ 2 ^ (q + 1) := redundancy_le_iff
  have hbefore : redundancy m ≤ q ↔ m + q + 1 ≤ 2 ^ q := redundancy_le_iff
  rw [Nat.add_sub_cancel]
  omega

/-- The encoder's parity positions are the powers of two not exceeding its length (R93). -/
theorem lt_redundancy_iff {m k : Nat} : k < redundancy m ↔ 2 ^ k ≤ m + redundancy m := by
  rw [← lt_bitlen_iff, bitlen_encodedLength]

/-- Only the empty string leaves `SIZE` with no parity position. -/
theorem redundancy_pos {m : Nat} (hm : 1 ≤ m) : 0 < redundancy m := lt_redundancy_iff.2 (by omega)

/-- The codeword length has `R(m)` binary digits, and is below the power of two of that size (R93). -/
theorem encodedLength_lt (m : Nat) : m + redundancy m < 2 ^ redundancy m := redundancy_le_iff.1 le_rfl

/-- A number that is no power of two is 0 or at least 3. -/
theorem eq_zero_or_three_le {n : Nat} (hp : isParityPos n = false) : n = 0 ∨ 3 ≤ n := by
  have h1 : n ≠ 1 := by rintro rfl; cases hp
  have h2 : n ≠ 2 := by rintro rfl; cases hp
  omega

/-- Settles O26: the lengths have `R(m)` binary digits and are no powers of two, and each such number is reached from
its data positions alone. -/
theorem encoderLengths : Obligations.EncoderLengths := by
  refine ⟨fun m hm => ⟨?_, encodedLength_lt m⟩, fun m k => lt_redundancy_iff, fun m => ?_, fun n hn hp m => ?_⟩
  · have hle : 2 ^ (redundancy m - 1) ≤ m + redundancy m :=
      lt_redundancy_iff.1 (Nat.sub_lt (redundancy_pos hm) one_pos)
    refine hle.lt_of_ne fun heq => ?_
    have hp := isParityPos_encodedLength m
    rw [← heq, isParityPos_two_pow] at hp
    cases hp
  · have hp := isParityPos_encodedLength m
    exact (eq_zero_or_three_le hp).imp id (⟨·, hp⟩)
  · constructor
    · rintro rfl
      rw [bitlen_encodedLength, Nat.add_sub_cancel]
    · rintro rfl
      rw [redundancy_sub_bitlen (by omega) hp, Nat.sub_add_cancel (bitlen_le_self n)]

end Sys2Proof.Machine
end

section
/-! PROOFS. The encoder's buffer: what `PLACE` and the parity computations leave (`40_encoder.md` R94 to R99). -/

namespace Sys2Proof.Machine

/-! ### The data bits in the layout (R94 to R96) -/

/-- Before `DataPos(j)` stand `j - 1` data positions. -/
theorem dataPositions_length_below {j : Nat} (hj : 1 ≤ j) : (dataPositions (dataPos j - 1)).length = j - 1 := by
  have hlen := dataPositions_length (dataPos j - 1)
  have hbits := bitlen_succ (dataPos j - 1)
  rw [dataPos_eq hj] at *
  rw [Nat.sub_add_cancel (by omega), isParityPos_encodedLength, bitlen_encodedLength] at hbits
  simp only [Bool.false_eq_true, if_false] at hbits
  omega

/-- The data positions of an encoder's length are `DataPos(1), ..., DataPos(m)`. -/
theorem dataPositions_encodedLength (m : Nat) :
    dataPositions (m + redundancy m) = (List.range m).map fun j => dataPos (j + 1) := by
  have hlen : (dataPositions (m + redundancy m)).length = m := by
    have := dataPositions_length (m + redundancy m)
    rw [bitlen_encodedLength] at this
    omega
  refine List.ext_getElem (by simp [hlen]) fun j h _ => ?_
  have hpos : dataPos (j + 1) = j + 1 + redundancy (j + 1) := dataPos_eq (by omega)
  have hp : isParityPos (dataPos (j + 1)) = false := hpos ▸ isParityPos_encodedLength (j + 1)
  have hle : dataPos (j + 1) ≤ m + redundancy m := hpos ▸ encodedLength_mono (by omega)
  obtain ⟨tl, hsplit⟩ := dataPositions_split (by omega) hle hp
  have hbelow : (dataPositions (dataPos (j + 1) - 1)).length = j := dataPositions_length_below (by omega)
  simp [hsplit, List.getElem_append_right hbelow.le, hbelow]

theorem memRead_place_dataPos (inb : Nat) {j m : Nat} (hj : 1 ≤ j) (hm : j ≤ m) :
    memRead (place inb (m + redundancy m)) (dataPos j) = inb.testBit (j - 1) := by
  have hpos := dataPos_eq hj
  have hle : dataPos j ≤ m + redundancy m := hpos ▸ encodedLength_mono hm
  have hp : isParityPos (dataPos j) = false := hpos ▸ isParityPos_encodedLength j
  rw [memRead_place _ _ (by omega), if_pos hle, hp, dataPositions_length_below hj]
  rfl

/-- A parity position of the layout reads 0. -/
theorem memRead_place_of_isParityPos (inb n : Nat) {i : Nat} (hi : 1 ≤ i) (hp : isParityPos i = true) :
    memRead (place inb n) i = false := by
  simp [memRead_place inb n hi, hp]

/-- Settles O30: by what `PLACE` leaves at a data position, at a parity position and beyond `n`. -/
theorem placePutsDataInOrder : Obligations.PlacePutsDataInOrder := by
  refine fun inb m => ⟨fun j hj hm => ⟨?_, memRead_place_dataPos inb hj hm⟩, fun k => ?_, place_lt _ _⟩
  · rw [dataPos_eq hj]
    exact encodedLength_mono hm
  · exact memRead_place_of_isParityPos _ _ Nat.one_le_two_pow (isParityPos_two_pow k)

/-! ### The parity bits (R97, R99) -/

/-- The layout's data positions read the data bits in order. -/
theorem dataPositions_map_place {β : Type} (f : Nat → Bool → β) (d : BitString) :
    ((dataPositions (d.length + redundancy d.length)).map fun i =>
        f i (memRead (place (ofBits d) (d.length + redundancy d.length)) i)) =
      (List.range d.length).map fun j => f (dataPos (j + 1)) (d.getD j false) := by
  rw [dataPositions_encodedLength, List.map_map]
  refine List.map_congr_left fun j hj => ?_
  have hj' : j + 1 ≤ d.length := List.mem_range.1 hj
  simp only [Function.comp_apply, memRead_place_dataPos _ (Nat.le_add_left 1 j) hj', Nat.add_sub_cancel,
    testBit_ofBits]

/-- A parity as an XOR over all positions. -/
theorem coverParity_eq_positions (buf n k : Nat) :
    coverParity buf n (2 ^ k) = xorAll ((positions n).map fun i => i.testBit k && memRead buf i) := by
  rw [coverParity, coverValues, cover, xorAll_map_filter]
  refine congrArg xorAll (List.map_congr_left fun i _ => ?_)
  have hbit : (i &&& 2 ^ k == 2 ^ k) = i.testBit k := by rw [Bool.eq_iff_iff, beq_iff_eq, and_two_pow_eq_iff]
  rw [hbit]

/-- A parity of the layout as an XOR over the data positions, since the parity positions read 0. -/
theorem coverParity_place (inb n k : Nat) :
    coverParity (place inb n) n (2 ^ k) =
      xorAll ((dataPositions n).map fun i => i.testBit k && memRead (place inb n) i) := by
  rw [coverParity_eq_positions, dataPositions, xorAll_map_filter]
  refine congrArg xorAll (List.map_congr_left fun i hi => ?_)
  cases hp : isParityPos i
  · rfl
  · simp [memRead_place_of_isParityPos inb n (mem_positions.1 hi).1 hp]

/-- The parity computations write the value that `chk` records. -/
theorem memRead_encodeBuffers_two_pow (d : BitString) {k : Nat} (hk : k < redundancy d.length) :
    memRead (encodeBuffers d).1 (2 ^ k) = (encodeBuffers d).2.testBit k := by
  have hlt : 2 ^ k < 2 ^ redundancy d.length := Nat.pow_lt_pow_right (by decide) hk
  rw [encodeBuffers_read d Nat.one_le_two_pow, encodeBuffers_chk, if_pos ⟨isParityPos_two_pow k, hlt⟩, if_pos hk]

/-- Settles O31: a parity is read from the layout, whose data positions alone are not 0. -/
theorem parityBitIsXorOfDataBits : Obligations.ParityBitIsXorOfDataBits := by
  refine fun d k hk => ⟨memRead_encodeBuffers_two_pow d hk, ?_⟩
  rw [encodeBuffers_chk, if_pos hk, coverParity_place, dataPositions_map_place fun i b => i.testBit k && b]

/-! ### The buffer at its end -/

/-- Two buffers with the same bits at all positions are the same buffer. -/
theorem memRead_ext {x y : Nat} (h : ∀ i, 1 ≤ i → memRead x i = memRead y i) : x = y :=
  bits_ext fun j => h (j + 1) (by omega)

/-- The parity computations write parity positions alone. -/
theorem memRead_encodeBuffers_data (d : BitString) {i : Nat} (hi : 1 ≤ i) (hp : isParityPos i = false) :
    memRead (encodeBuffers d).1 i = memRead (place (ofBits d) (d.length + redundancy d.length)) i := by
  simp [encodeBuffers_read d hi, hp]

/-- The codeword is 0 beyond its length: every parity position stands within it (R93). -/
theorem encodeBuffers_buf_lt (d : BitString) : (encodeBuffers d).1 < 2 ^ (d.length + redundancy d.length) := by
  refine Nat.lt_pow_two_of_testBit _ fun j hj => ?_
  change memRead (encodeBuffers d).1 (j + 1) = false
  rw [encodeBuffers_read d (by omega), if_neg, memRead_place _ _ (by omega), if_neg (by omega)]
  rintro ⟨hp, hlt⟩
  obtain ⟨k, hk⟩ := (isParityPos_iff _).1 hp
  rw [hk, Nat.pow_lt_pow_iff_right (by decide), lt_redundancy_iff] at hlt
  omega

/-- One check bit for each parity position. -/
theorem encodeBuffers_chk_lt (d : BitString) : (encodeBuffers d).2 < 2 ^ redundancy d.length :=
  Nat.lt_pow_two_of_testBit _ fun j hj => by rw [encodeBuffers_chk, if_neg (by omega)]

end Sys2Proof.Machine
end

section
/-! PROOFS. The codewords (`40_encoder.md` R104): every check passes, the data can be read off, `ENC` is linear, and
two codewords differ in at least 3 positions. -/

namespace Sys2Proof.Machine

/-! ### The checks of a codeword (R104(a)) and its data (R104(b)) -/

@[simp] theorem hammingEncode_codeword_length (d : BitString) :
    (hammingEncode d).codeword.length = d.length + redundancy d.length := by
  simp [hammingEncode]

/-- Position `i` of the codeword as the list that the host reads. -/
theorem hammingEncode_codeword_getD (d : BitString) {i : Nat} (h1 : 1 ≤ i) (hn : i ≤ d.length + redundancy d.length) :
    (hammingEncode d).codeword.getD (i - 1) false = memRead (encodeBuffers d).1 i := by
  have hlt : i - 1 < d.length + redundancy d.length := by omega
  rw [hammingEncode, toBits_getD, decide_eq_true hlt, Bool.true_and, memRead]

/-- A single 1 at position `p` shows in the parities that cover `p`. -/
theorem coverParity_two_pow {n p : Nat} (k : Nat) (h1 : 1 ≤ p) (hn : p ≤ n) :
    coverParity (2 ^ (p - 1)) n (2 ^ k) = p.testBit k := by
  have hsingle : ∀ i ∈ positions n, (i.testBit k && memRead (2 ^ (p - 1)) i) = (i == p && p.testBit k) := by
    intro i hi
    have hi1 : 1 ≤ i := (mem_positions.1 hi).1
    by_cases hip : i = p
    · simp [hip, memRead]
    · have hne : p - 1 ≠ i - 1 := by omega
      simp [hip, hne, memRead]
  have hone : (positions n).count p = 1 := List.count_eq_one_of_mem (List.nodup_range' ..) (mem_positions.2 ⟨h1, hn⟩)
  rw [coverParity_eq_positions, List.map_congr_left hsingle, ← xorAll_map_filter, List.filter_beq, hone]
  simp

/-- A write changes the parities that cover its position, if it changes the bit there. -/
theorem coverParity_memWrite {buf n p : Nat} {v : Bool} (k : Nat) (h1 : 1 ≤ p) (hn : p ≤ n) :
    coverParity (memWrite buf p v) n (2 ^ k) =
      (coverParity buf n (2 ^ k) ^^ (p.testBit k && (memRead buf p ^^ v))) := by
  rw [memWrite, setBit, memRead]
  split
  case isTrue h => simp [h]
  case isFalse h => rw [coverParity_xor, coverParity_two_pow k h1 hn, Bool.eq_not_of_ne h]; simp

/-- `PARITY(k)` makes the check of its own position pass (R104(a)). -/
theorem coverParity_encodeBuffers (d : BitString) {k : Nat} (hk : k < redundancy d.length) :
    coverParity (encodeBuffers d).1 (d.length + redundancy d.length) (2 ^ k) = false := by
  have h := (parityUnits_spec (d.length + redundancy d.length) (redundancy d.length)
    (place (ofBits d) (d.length + redundancy d.length)) 0).1 k
  rw [encodeBuffers, h, if_pos hk, coverParity_memWrite k Nat.one_le_two_pow (lt_redundancy_iff.1 hk),
    memRead_place_of_isParityPos _ _ Nat.one_le_two_pow (isParityPos_two_pow k)]
  simp

/-- The codeword's data positions read the data (R104(b)). -/
theorem dataPositions_map_codeword (d : BitString) :
    ((dataPositions (d.length + redundancy d.length)).map fun i =>
      (hammingEncode d).codeword.getD (i - 1) false) = d := by
  calc _ = (dataPositions (d.length + redundancy d.length)).map fun i =>
          memRead (place (ofBits d) (d.length + redundancy d.length)) i :=
        List.map_congr_left fun i hi => by
          obtain ⟨⟨h1, hn⟩, hp⟩ := mem_dataPositions.1 hi
          rw [hammingEncode_codeword_getD d h1 hn, memRead_encodeBuffers_data d h1 hp]
    _ = (List.range d.length).map fun j => d.getD j false := dataPositions_map_place (fun _ b => b) d
    _ = toBits d.length (ofBits d) := List.map_congr_left fun j _ => (testBit_ofBits d j).symm
    _ = d := toBits_ofBits d

/-- Two data strings of one length with the same codeword are the same. -/
theorem eq_of_hammingEncode_codeword_eq {d e : BitString} (hlen : d.length = e.length)
    (h : (hammingEncode d).codeword = (hammingEncode e).codeword) : d = e := by
  have hd := dataPositions_map_codeword d
  rw [h, hlen] at hd
  exact hd.symm.trans (dataPositions_map_codeword e)

/-- Settles O46: each parity computation makes its own check pass and leaves the data positions. -/
theorem encodedWordSatisfiesItsChecks : Obligations.EncodedWordSatisfiesItsChecks := by
  intro d
  rw [hammingEncode_codeword_length]
  refine ⟨fun k hk => ?_, dataPositions_map_codeword d⟩
  refine Eq.trans ?_ (coverParity_encodeBuffers d hk)
  refine congrArg xorAll (List.map_congr_left fun i hi => ?_)
  obtain ⟨h1, hn⟩ := cover_in_range hi
  exact hammingEncode_codeword_getD d h1 hn

/-! ### Linearity (R104(c)) -/

theorem ofBits_zipWith_xor {d e : BitString} (h : d.length = e.length) :
    ofBits (List.zipWith xor d e) = ofBits d ^^^ ofBits e := by
  refine bits_ext fun j => ?_
  simp only [Nat.testBit_xor, testBit_ofBits]
  by_cases hj : j < d.length
  · have hj' : j < e.length := h ▸ hj
    simp [List.getD, hj, hj']
  · have hj' : ¬ j < e.length := h ▸ hj
    simp [List.getD, hj, hj']

theorem toBits_xor (len x y : Nat) : toBits len (x ^^^ y) = List.zipWith xor (toBits len x) (toBits len y) := by
  simp [toBits, List.zipWith_map, Nat.testBit_xor]

/-- `PLACE` is linear. -/
theorem place_xor (x y n : Nat) : place (x ^^^ y) n = place x n ^^^ place y n := by
  refine memRead_ext fun i hi => ?_
  rw [memRead_xor, memRead_place _ _ hi, memRead_place _ _ hi, memRead_place _ _ hi]
  split
  case isTrue => split <;> simp [Nat.testBit_xor]
  case isFalse => rfl

/-- `PLACE` and the parity computations are linear together. -/
theorem encodeBuffers_zipWith_xor {d e : BitString} (h : d.length = e.length) :
    (encodeBuffers (List.zipWith xor d e)).1 = (encodeBuffers d).1 ^^^ (encodeBuffers e).1 := by
  have hlen : (List.zipWith xor d e).length = d.length := by simp [h]
  refine memRead_ext fun i hi => ?_
  rw [memRead_xor, encodeBuffers_read _ hi, encodeBuffers_read _ hi, encodeBuffers_read _ hi, hlen, ← h,
    ofBits_zipWith_xor h, place_xor]
  split
  case isTrue => exact coverParity_xor _ _ _ _
  case isFalse => exact memRead_xor _ _ _

theorem hammingEncode_codeword_zipWith_xor {d e : BitString} (h : d.length = e.length) :
    (hammingEncode (List.zipWith xor d e)).codeword =
      List.zipWith xor (hammingEncode d).codeword (hammingEncode e).codeword := by
  have hlen : (List.zipWith xor d e).length = d.length := by simp [h]
  simp only [hammingEncode, encodeBuffers_zipWith_xor h, hlen, toBits_xor, h]

/-- The sum of a string with itself is 0. -/
theorem zipWith_xor_self (d : BitString) : List.zipWith xor d d = List.replicate d.length false := by
  rw [List.zipWith_self]
  simp

/-- Settles O47: the buffers are linear, and the zero string is a string added to itself. -/
theorem encodeIsLinear : Obligations.EncodeIsLinear := by
  refine ⟨fun d e h => hammingEncode_codeword_zipWith_xor h, fun m => ?_⟩
  have hself := hammingEncode_codeword_zipWith_xor (rfl : (List.replicate m false).length = _)
  rw [zipWith_xor_self, zipWith_xor_self, hammingEncode_codeword_length, List.length_replicate] at hself
  exact hself

/-! ### The distance of two codewords (R104(d)) -/

/-- The positions of `1..n` at which a word reads 1. -/
def support (z n : Nat) : List Nat := (positions n).filter (memRead z)

theorem mem_support {z n i : Nat} : i ∈ support z n ↔ (1 ≤ i ∧ i ≤ n) ∧ memRead z i = true := by
  simp [support]

theorem support_nodup (z n : Nat) : (support z n).Nodup := (List.nodup_range' ..).filter _

/-- A word of length `n` without a 1 is 0. -/
theorem eq_zero_of_support_eq_nil {z n : Nat} (hz : z < 2 ^ n) (h : support z n = []) : z = 0 := by
  refine Nat.zero_of_testBit_eq_false fun j => ?_
  by_cases hj : j < n
  · have hnot : j + 1 ∉ support z n := by simp [h]
    simpa [mem_support, memRead, Nat.succ_le_iff, hj] using hnot
  · exact Nat.testBit_lt_two_pow (hz.trans_le (Nat.pow_le_pow_right (by decide) (not_lt.1 hj)))

/-- A parity counts the 1s of the word that it covers. -/
theorem coverParity_eq_support (z n k : Nat) : coverParity z n (2 ^ k) = xorAll ((support z n).map (·.testBit k)) := by
  rw [coverParity_eq_positions, support, xorAll_map_filter]
  simp only [Bool.and_comm]

/-- Positions are told apart by the checks that cover them. -/
theorem position_ext {n p q : Nat} (hp : p ≤ n) (hq : q ≤ n) (h : ∀ k, k < bitlen n → p.testBit k = q.testBit k) :
    p = q := by
  refine bits_ext fun k => ?_
  by_cases hk : k < bitlen n
  · exact h k hk
  · have hlt : n < 2 ^ k := (lt_two_pow_bitlen n).trans_le (Nat.pow_le_pow_right (by decide) (not_lt.1 hk))
    rw [Nat.testBit_lt_two_pow (hp.trans_lt hlt), Nat.testBit_lt_two_pow (hq.trans_lt hlt)]

/-- A word that passes every check is 0 or has three 1s: one 1 fails the checks that cover it, and two fail those
that cover one of them alone. -/
theorem three_le_support_length {z n : Nat} (hcheck : ∀ k, k < bitlen n → coverParity z n (2 ^ k) = false)
    (hne : support z n ≠ []) : 3 ≤ (support z n).length := by
  have hrange : ∀ i ∈ support z n, 1 ≤ i ∧ i ≤ n := fun i hi => (mem_support.1 hi).1
  have hnodup := support_nodup z n
  simp only [coverParity_eq_support] at hcheck
  generalize support z n = ones at *
  match ones, hne with
  | [p], _ =>
    have hzero : p = 0 := position_ext (hrange p (by simp)).2 (Nat.zero_le n) fun k hk => by simpa using hcheck k hk
    exact absurd (hrange p (by simp)).1 (by omega)
  | [p, q], _ =>
    have heq : p = q := position_ext (hrange p (by simp)).2 (hrange q (by simp)).2 fun k hk => by
      simpa using hcheck k hk
    simp [heq] at hnodup
  | _ :: _ :: _ :: _, _ => simp

/-- The number of places at which two codewords differ is the number of 1s of their sum. -/
theorem differences_length {d e : BitString} (h : d.length = e.length) :
    ((List.range (hammingEncode d).codeword.length).filter fun j =>
        (hammingEncode d).codeword.getD j false != (hammingEncode e).codeword.getD j false).length =
      (support ((encodeBuffers d).1 ^^^ (encodeBuffers e).1) (d.length + redundancy d.length)).length := by
  rw [hammingEncode_codeword_length, support, positions, List.range'_eq_map_range, List.filter_map, List.length_map]
  refine congrArg List.length (List.filter_congr fun j hj => ?_)
  have hn : 1 + j ≤ d.length + redundancy d.length := by have := List.mem_range.1 hj; omega
  have hd := hammingEncode_codeword_getD d (Nat.le_add_right 1 j) hn
  have he := hammingEncode_codeword_getD e (Nat.le_add_right 1 j) (h ▸ hn)
  rw [Nat.add_sub_cancel_left] at hd he
  rw [hd, he, Function.comp_apply, memRead_xor, Bool.bne_eq_xor]

/-- Settles O48: the sum of the codewords passes every check, and it is not 0, since the data can be read off. -/
theorem codewordsDifferInThreePositions : Obligations.CodewordsDifferInThreePositions := by
  intro d e h hne
  rw [differences_length h]
  refine three_le_support_length (fun k hk => ?_) fun hnil => hne ?_
  · rw [bitlen_encodedLength] at hk
    rw [coverParity_xor, coverParity_encodeBuffers d hk, h, coverParity_encodeBuffers e (h ▸ hk), Bool.xor_self]
  · have hlt := Nat.xor_lt_two_pow (encodeBuffers_buf_lt d) (h ▸ encodeBuffers_buf_lt e)
    have hbuf : (encodeBuffers d).1 = (encodeBuffers e).1 := Nat.xor_eq_zero_iff.1 (eq_zero_of_support_eq_nil hlt hnil)
    exact eq_of_hammingEncode_codeword_eq h (by simp only [hammingEncode, hbuf, h])

end Sys2Proof.Machine
end

section
/-! PROOFS. A whole `ENC` (`40_encoder.md` R102, R103): the registers from the acceptance to `Finalized`. -/

namespace Sys2Proof.Machine

variable {c : Params} {σ : Regs} {len bits : Nat}

/-- `emit` as one update of `trace`. -/
theorem emit_eq (c : Params) (evs : List Event) (σ : Regs) :
    emit c evs σ = { σ with trace := if c.traceEn then σ.trace ++ evs else σ.trace } := by
  unfold emit
  split <;> rfl

theorem refusal_enc (hfit : fitsCapacity c (len + redundancy len) = true) : refusal c .enc len = none :=
  refusal_none_iff.2 (.inl ⟨rfl, hfit⟩)

/-- A data string whose codeword fits is itself held whole. -/
theorem heldLen_of_enc (hfit : fitsCapacity c (len + redundancy len) = true) : heldLen c len = len :=
  heldLen_of_fits (fitsCapacity_mono hfit (Nat.le_add_right _ _))

/-- The events of an encode before its parities. -/
def layoutEvents (d : BitString) : List Event :=
  [.input .enc d.length d, .sizing d.length (candidates d.length),
    .parityPositions (parityPositions (redundancy d.length)),
    .layout (d.length + redundancy d.length)
      (layoutCells (place (ofBits d) (d.length + redundancy d.length)) (d.length + redundancy d.length))]

/-- T2, T4 and T5 of an encode whose data string `d` fits. -/
theorem layout_sizing_accept_enc (hfit : fitsCapacity c (len + redundancy len) = true) :
    layout c (sizing c (accept c .enc len bits)) =
      emit c (layoutEvents (toBits len bits))
        { Regs.reset with
          ph := .layoutBuilt, op := .enc, len := len, inb := bits % 2 ^ len
          r := redundancy len, n := len + redundancy len
          buf := place (bits % 2 ^ len) (len + redundancy len) } := by
  have hop : (accept c .enc len bits).op = .enc := emit_op ..
  rw [layout_of_enc ((sizing_frame c _).1.trans hop), sizing_of_enc hop]
  simp only [accept, emit_eq, layoutEvents, latch, heldLen_of_enc hfit, ofBits_toBits, toBits_mod,
    toBits_length, reset_trace]
  cases c.traceEn <;> rfl

/-- The parity phase of an encode, also where there is no parity position. -/
theorem parityActions_of_enc (hop : σ.op = .enc) :
    parityActions c σ =
      emit c ((List.range σ.r).map (parityEvent σ.buf σ.n))
        { σ with
          ph := if σ.r = 0 then σ.ph else .parityBits
          k := if σ.r = 0 then σ.k else σ.r - 1
          buf := ((List.range σ.r).foldl (fun st k => parityUnit σ.n k st) (σ.buf, σ.chk)).1
          chk := ((List.range σ.r).foldl (fun st k => parityUnit σ.n k st) (σ.buf, σ.chk)).2 } := by
  rw [parityActions, emit_eq]
  cases hr : σ.r with
  | zero =>
    cases σ
    cases hr
    simp
  | succ m => rw [parityActions_enc c σ hop]; simp [hr]

/-- What `ENC` of a data string that fits leaves. -/
theorem operation_enc (hfit : fitsCapacity c (len + redundancy len) = true) :
    operation c .enc len bits =
      emit c (hammingEncode (toBits len bits)).trace
        { Regs.reset with
          ph := .finalized, k := redundancy len - 1, op := .enc, len := len, inb := bits % 2 ^ len
          r := redundancy len, n := len + redundancy len
          buf := (encodeBuffers (toBits len bits)).1, chk := (encodeBuffers (toBits len bits)).2
          done := true, resCw := (encodeBuffers (toBits len bits)).1, resCwLen := len + redundancy len
          resData := bits % 2 ^ len, resDataLen := len, resR := redundancy len
          resChk := (encodeBuffers (toBits len bits)).2 } := by
  rw [operation_of_valid (refusal_enc hfit), finalize_of_enc (beforeFinalize_frame ..).1, finalizeEnc, beforeFinalize,
    layout_sizing_accept_enc hfit, parityActions_of_enc (emit_op ..)]
  simp only [emit_eq, hammingEncode, encodeTrace, layoutEvents, encodeBuffers, ofBits_toBits, toBits_length]
  have hk : (if redundancy len = 0 then 0 else redundancy len - 1) = redundancy len - 1 := by split <;> omega
  cases c.traceEn <;> simp [hk]

/-- Settles O37: `operation_enc`, with the codeword as a string and as a vector. -/
theorem encCompletesWithItsResult : Obligations.EncCompletesWithItsResult := by
  intro len bits s hb hfit
  have hbuf : ofBits (hammingEncode (toBits len bits)).codeword = (encodeBuffers (toBits len bits)).1 :=
    ofBits_toBits_of_lt (encodeBuffers_buf_lt _)
  have hchk := encodeBuffers_chk_lt (toBits len bits)
  rw [toBits_length] at hchk
  refine ⟨_, (exec_eq_perform _ _).trans (perform_not_busy hb), rfl, rfl, ?_⟩
  simp only [instrOp, instrLen, instrBits, operation_enc hfit, hbuf]
  refine ⟨?_, ?_, ?_, ?_, ?_, ?_, ?_⟩
  · simp [codewordString, hammingEncode]
  · simp [resParityPositions, hammingEncode]
  · simp [resParityRecords, hammingEncode]
  · simp [dataString, hammingEncode, toBits_mod]
  · simp [emit_eq]
  · intro htrace
    simp [htrace]
  · simpa using hchk

end Sys2Proof.Machine
end

section
/-! PROOFS. The decoder's units: `PPID` (`41_decoder.md` R120), the syndrome (R125), the correction (R128 to R130), the
extraction (R132), and which syndromes words have (R137, R138). -/

namespace Sys2Proof.Machine

/-! ### PPID (R120, R121) -/

/-- Settles O27: `ppid` is `bitlen`. -/
theorem ppidCountsThePowersOfTwo : Obligations.PpidCountsThePowersOfTwo := by
  refine ⟨fun n k => ?_, ppid_eq_bitlen, fun m => ?_⟩
  · rw [ppid_eq_bitlen, lt_bitlen_iff]
  · rw [ppid_eq_bitlen, bitlen_encodedLength]

/-! ### The syndrome (R125) -/

/-- `SYNDROME` reads its check bits as a number: the sum of the failed positions is the vector of the checks. -/
theorem syndrome_eq_mod (chk r : Nat) : syndrome chk r = chk % 2 ^ r := by
  induction r with
  | zero => simp [syndrome, failedPositions, Nat.mod_one]
  | succ r ih =>
    rw [syndrome_succ, ih, Nat.mod_pow_succ, ← Nat.toNat_testBit]
    cases chk.testBit r <;> simp

/-- Each check of a word has its bit. -/
theorem testBit_decodeChecks (x : BitString) (k : Nat) :
    (decodeChecks x).testBit k = (decide (k < bitlen x.length) && coverParity (ofBits x) x.length (2 ^ k)) := by
  rw [decodeChecks, checkUnits_spec, ppid_eq_bitlen]
  split <;> simp [*]

theorem decodeChecks_lt (x : BitString) : decodeChecks x < 2 ^ bitlen x.length :=
  Nat.lt_pow_two_of_testBit _ fun k hk => by rw [testBit_decodeChecks, decide_eq_false (not_lt.2 hk), Bool.false_and]

theorem syndromeOf_eq_decodeChecks (x : BitString) : syndromeOf x = decodeChecks x := by
  rw [syndromeOf, ppid_eq_bitlen, syndrome_eq_mod, Nat.mod_eq_of_lt (decodeChecks_lt x)]

theorem syndromeOf_lt (x : BitString) : syndromeOf x < 2 ^ bitlen x.length :=
  syndromeOf_eq_decodeChecks x ▸ decodeChecks_lt x

/-- Beyond `bitlen n` no position is covered. -/
theorem coverParity_of_bitlen_le {buf n k : Nat} (hk : bitlen n ≤ k) : coverParity buf n (2 ^ k) = false := by
  have hnil : cover (2 ^ k) n = [] := List.eq_nil_iff_forall_not_mem.2 fun i hi =>
    absurd ((lt_bitlen_iff n k).2 ((two_pow_le_of_mem_cover hi).trans (cover_in_range hi).2)) (not_lt.2 hk)
  rw [coverParity, coverValues, hnil]
  rfl

/-- Bit `k` of the syndrome is the parity over the cover of `2^k`, at every `k`. -/
theorem testBit_syndromeOf (x : BitString) (k : Nat) :
    (syndromeOf x).testBit k = coverParity (ofBits x) x.length (2 ^ k) := by
  rw [syndromeOf_eq_decodeChecks, testBit_decodeChecks]
  by_cases hk : k < bitlen x.length
  · simp [hk]
  · simp [hk, coverParity_of_bitlen_le (not_lt.1 hk)]

/-- A bit of the XOR of numbers is the XOR of their bits. -/
theorem testBit_foldl_xor (l : List Nat) (a k : Nat) :
    (l.foldl (· ^^^ ·) a).testBit k = (a.testBit k ^^ xorAll (l.map (·.testBit k))) := by
  induction l generalizing a with
  | nil => simp
  | cons b l ih => simp [ih, Nat.testBit_xor]

theorem syndromeOf_eq_foldl_support (x : BitString) :
    syndromeOf x = (support (ofBits x) x.length).foldl (· ^^^ ·) 0 :=
  bits_ext fun k => by
    rw [testBit_syndromeOf, coverParity_eq_support, testBit_foldl_xor, Nat.zero_testBit, Bool.false_xor]

theorem syndromeOf_zipWith_xor {x y : BitString} (h : x.length = y.length) :
    syndromeOf (List.zipWith xor x y) = syndromeOf x ^^^ syndromeOf y := by
  have hlen : (List.zipWith xor x y).length = x.length := by simp [h]
  refine bits_ext fun k => ?_
  rw [Nat.testBit_xor, testBit_syndromeOf, testBit_syndromeOf, testBit_syndromeOf, ofBits_zipWith_xor h, hlen,
    coverParity_xor, h]

/-- At most twice as many syndromes as positions. -/
theorem two_pow_bitlen_le {n : Nat} (hn : n ≠ 0) : 2 ^ bitlen n ≤ 2 * n := by
  have hpos : 0 < bitlen n := (lt_bitlen_iff n 0).2 (Nat.one_le_iff_ne_zero.2 hn)
  obtain ⟨t, ht⟩ : ∃ t, bitlen n = t + 1 := ⟨bitlen n - 1, by omega⟩
  have hle : 2 ^ t ≤ n := (lt_bitlen_iff n t).1 (by omega)
  rw [ht, Nat.pow_succ]
  omega

/-- Settles O33: bit by bit, the syndrome is the checks, which are linear in the word. -/
theorem syndromeIsXorOfPositions : Obligations.SyndromeIsXorOfPositions := by
  refine ⟨fun x => ⟨syndromeOf_eq_decodeChecks x, ?_, fun hx => ?_, ?_⟩, fun x y h => syndromeOf_zipWith_xor h⟩
  · exact ppid_eq_bitlen x.length ▸ syndromeOf_lt x
  · exact ppid_eq_bitlen x.length ▸ two_pow_bitlen_le (mt List.length_eq_zero_iff.1 hx)
  · rw [syndromeOf_eq_foldl_support]
    exact congrArg (List.foldl (· ^^^ ·) 0) (List.filter_congr fun i _ => testBit_ofBits x (i - 1))

/-! ### Flipped positions (R128, R135, R137) -/

theorem flip_zero (x : BitString) : flip x 0 = x := rfl

/-- There is nothing to flip beyond the word. -/
theorem flip_of_length_lt {x : BitString} {q : Nat} (h : x.length < q) : flip x q = x := by
  have hq : ¬ q - 1 < x.length := by omega
  simp [flip, injectAt, hq]

/-- Two strings of one length with the same symbols are the same. -/
theorem bitString_ext {x y : BitString} (hlen : x.length = y.length)
    (h : ∀ j, j < x.length → x.getD j false = y.getD j false) : x = y := by
  refine List.ext_getElem hlen fun j hx hy => ?_
  simpa [List.getD, hx, hy] using h j hx

/-- A flip in a word is the XOR with one bit of its vector. -/
theorem ofBits_flip {x : BitString} {q : Nat} (h1 : 1 ≤ q) (hq : q ≤ x.length) :
    ofBits (flip x q) = ofBits x ^^^ 2 ^ (q - 1) := by
  refine bits_ext fun j => ?_
  rw [testBit_ofBits, flip_getD, Nat.testBit_xor, Nat.testBit_two_pow, testBit_ofBits]
  refine congrArg _ (decide_eq_decide.2 ?_)
  omega

/-- A flip at position `q` adds `q` to the syndrome. -/
theorem syndromeOf_flip {x : BitString} {q : Nat} (hq : q ≤ x.length) :
    syndromeOf (flip x q) = syndromeOf x ^^^ q := by
  obtain rfl | h1 := Nat.eq_zero_or_pos q
  · rw [flip_zero, Nat.xor_zero]
  · refine bits_ext fun k => ?_
    rw [Nat.testBit_xor, testBit_syndromeOf, testBit_syndromeOf, flip_length, ofBits_flip h1 hq, coverParity_xor,
      coverParity_two_pow k h1 hq]

/-- Flips add up their positions. -/
theorem syndromeOf_foldl_flip {qs : List Nat} {x : BitString} (hqs : ∀ q ∈ qs, q ≤ x.length) :
    syndromeOf (qs.foldl flip x) = qs.foldl (· ^^^ ·) (syndromeOf x) := by
  induction qs generalizing x with
  | nil => rfl
  | cons q qs ih =>
    obtain ⟨hq, hqs⟩ := List.forall_mem_cons.1 hqs
    rw [List.foldl_cons, List.foldl_cons, ih (by simpa using hqs), syndromeOf_flip hq]

/-- The same flip again takes it back. -/
theorem flip_flip (x : BitString) (q : Nat) : flip (flip x q) q = x :=
  bitString_ext (by simp) fun j _ => by
    rw [flip_getD, flip_getD, flip_length, Bool.xor_assoc, Bool.xor_self, Bool.xor_false]

/-! ### CORRECT (R128 to R130) -/

/-- What `CORRECT` does is to flip the position that the syndrome names, where there is one. -/
theorem correct_locate (x : BitString) (s : Nat) :
    correct (ofBits x) (locate s x.length) = ofBits (flip x s) := by
  obtain rfl | h1 := Nat.eq_zero_or_pos s
  · rfl
  obtain hs | hs := le_or_gt s x.length
  · rw [ofBits_flip h1 hs, locate, if_neg h1.ne', if_pos hs, correct, memRead, memWrite, setBit, if_neg (by simp)]
  · rw [flip_of_length_lt hs, locate_of_lt hs, correct]

theorem correctedBits_eq (x : BitString) : correctedBits x = ofBits (flip x (syndromeOf x)) :=
  correct_locate x (syndromeOf x)

theorem hammingDecode_correctedCodeword (c : Params) (x : BitString) :
    (hammingDecode c x).correctedCodeword = flip x (syndromeOf x) := by
  have hlen : x.length = (flip x (syndromeOf x)).length := (flip_length ..).symm
  rw [hammingDecode, correctedBits_eq, hlen, toBits_ofBits]

/-- Settles O34: the flip of the syndrome's position cancels the syndrome. -/
theorem correctionFlipsTheSyndromePosition : Obligations.CorrectionFlipsTheSyndromePosition := by
  intro c x
  rw [hammingDecode_correctedCodeword]
  refine ⟨fun i h1 hi => ?_, flip_length .., fun hs => ?_, flip_of_length_lt⟩
  · rw [flip_getD]
    refine congrArg _ (decide_eq_decide.2 ?_)
    omega
  · rw [syndromeOf_flip hs, Nat.xor_self]

/-! ### EXTRACT (R132) -/

/-- The data positions of a shorter word are the first ones of a longer word. -/
theorem dataPositions_isPrefix {a b : Nat} (h : a ≤ b) : dataPositions a <+: dataPositions b := by
  induction b, h using Nat.le_induction with
  | base => exact List.prefix_rfl
  | succ b _ ih => exact ih.trans ⟨_, (dataPositions_succ b).symm⟩

/-- The data positions of `1..n` are the first `n - bitlen(n)` in the order of `DataPos`, for every `n`. -/
theorem dataPositions_eq_map_dataPos (n : Nat) :
    dataPositions n = (List.range (n - bitlen n)).map fun j => dataPos (j + 1) := by
  have hle := bitlen_le_self n
  have hlen := dataPositions_length n
  have hfit : redundancy (n - bitlen n) ≤ bitlen n :=
    redundancy_le_iff.2 (by have := lt_two_pow_bitlen n; omega)
  have hprefix : dataPositions (n - bitlen n + redundancy (n - bitlen n)) <+: dataPositions n :=
    dataPositions_isPrefix (by omega)
  rw [dataPositions_encodedLength] at hprefix
  exact (hprefix.eq_of_length (by rw [List.length_map, List.length_range]; omega)).symm

theorem extract_length_eq_sub_bitlen (cc n : Nat) : (extract cc n).length = n - bitlen n := by
  rw [extract, dataPositions_eq_map_dataPos, List.length_map, List.length_map, List.length_range]

/-- Settles O35: by the list of the data positions. -/
theorem extractReadsTheDataPositions : Obligations.ExtractReadsTheDataPositions := by
  refine fun cc n => ⟨extract_length_eq_sub_bitlen cc n, fun j h1 hj => ?_⟩
  have hlt : j - 1 < n - bitlen n := by omega
  have hmem : dataPos j ∈ dataPositions n := by
    rw [dataPositions_eq_map_dataPos]
    exact List.mem_map.2 ⟨j - 1, List.mem_range.2 hlt, by rw [Nat.sub_add_cancel h1]⟩
  refine ⟨?_, (mem_dataPositions.1 hmem).1.2⟩
  simp [extract, dataPositions_eq_map_dataPos, List.getD, hlt, Nat.sub_add_cancel h1]

/-! ### The errors of a codeword (R136, R137) -/

/-- A codeword as a vector. -/
theorem ofBits_hammingEncode_codeword (d : BitString) : ofBits (hammingEncode d).codeword = (encodeBuffers d).1 :=
  ofBits_toBits_of_lt (encodeBuffers_buf_lt d)

/-- Every check of a codeword passes. -/
theorem syndromeOf_codeword (d : BitString) : syndromeOf (hammingEncode d).codeword = 0 := by
  refine Nat.zero_of_testBit_eq_false fun k => ?_
  rw [testBit_syndromeOf, ofBits_hammingEncode_codeword, hammingEncode_codeword_length]
  obtain hk | hk := lt_or_ge k (redundancy d.length)
  · exact coverParity_encodeBuffers d hk
  · exact coverParity_of_bitlen_le ((bitlen_encodedLength d.length).trans_le hk)

/-- A word with errors at the listed positions, each listed once. -/
theorem errors_eq_foldl_flip (x : BitString) {qs : List Nat} (hnodup : qs.Nodup) :
    ((List.range x.length).map fun j => x.getD j false ^^ decide (j + 1 ∈ qs)) = qs.foldl flip x := by
  have hlen : (qs.foldl flip x).length = x.length := foldl_flip_length qs x
  refine bitString_ext (by simp [hlen]) fun j hj => ?_
  have hj : j < x.length := by simpa using hj
  have hodd : qs.count (j + 1) % 2 = 1 ↔ j + 1 ∈ qs := by
    by_cases hmem : j + 1 ∈ qs
    · simp [hmem, List.count_eq_one_of_mem hnodup hmem]
    · simp [hmem, List.count_eq_zero_of_not_mem hmem]
  rw [foldl_flip_getD]
  simp [List.getD, hj, hodd]

/-- Settles O45: the errors are flips, and the codeword's own syndrome is 0. -/
theorem errorsXorTheirPositions : Obligations.ErrorsXorTheirPositions := by
  intro d qs hnodup hqs
  refine ⟨?_, fun htwo => ?_⟩
  · rw [errors_eq_foldl_flip _ hnodup, syndromeOf_foldl_flip fun q hq => (hqs q hq).2, syndromeOf_codeword]
  · obtain ⟨p, q, rfl⟩ := List.length_eq_two.1 htwo
    simp only [List.foldl_cons, List.foldl_nil, Nat.zero_xor, ne_eq, Nat.xor_eq_zero_iff]
    rintro rfl
    simp at hnodup

/-! ### Every syndrome is reached (R138) -/

/-- A number of as many digits as `n` is the XOR of two numbers up to `n`: its highest digit, and the digits below. -/
theorem exists_xor_of_lt_two_pow_bitlen {n v : Nat} (hv : v < 2 ^ bitlen n) :
    ∃ p q, p ≤ n ∧ q ≤ n ∧ p ^^^ q = v := by
  cases hb : bitlen n with
  | zero => exact ⟨0, 0, Nat.zero_le n, Nat.zero_le n, by simpa [hb, eq_comm] using hv⟩
  | succ t =>
    have ht : 2 ^ t ≤ n := (lt_bitlen_iff n t).1 (by omega)
    rw [hb] at hv
    refine ⟨v &&& 2 ^ t, v % 2 ^ t, Nat.and_le_right.trans ht, (Nat.mod_lt _ (Nat.two_pow_pos t)).le.trans ht, ?_⟩
    refine bits_ext fun j => ?_
    rw [Nat.testBit_xor, Nat.testBit_and, Nat.testBit_two_pow, Nat.testBit_mod_two_pow]
    obtain hj | rfl | hj := lt_trichotomy j t
    · simp [hj, hj.ne']
    · simp
    · simp [hj.ne, not_lt.2 hj.le, Nat.testBit_lt_two_pow (hv.trans_le (Nat.pow_le_pow_right (by decide) hj))]

/-- The zero word passes every check: it is a word added to itself. -/
theorem syndromeOf_replicate_false (n : Nat) : syndromeOf (List.replicate n false) = 0 := by
  have hself := syndromeOf_zipWith_xor (rfl : (List.replicate n false).length = _)
  rwa [zipWith_xor_self, List.length_replicate, Nat.xor_self] at hself

/-- Every syndrome of `bitlen n` bits is that of a word of length `n` with at most two 1s. -/
theorem exists_syndromeOf_eq {n v : Nat} (hv : v < 2 ^ bitlen n) :
    ∃ x : BitString, x.length = n ∧ syndromeOf x = v := by
  obtain ⟨p, q, hp, hq, rfl⟩ := exists_xor_of_lt_two_pow_bitlen hv
  refine ⟨[p, q].foldl flip (List.replicate n false), by simp, ?_⟩
  rw [syndromeOf_foldl_flip (by simp [hp, hq]), syndromeOf_replicate_false]
  simp

end Sys2Proof.Machine
end

section
/-! PROOFS. A whole `DEC` (`41_decoder.md` R133, R134): the registers from the acceptance to `Finalized`. -/

namespace Sys2Proof.Machine

variable {c : Params} {σ : Regs} {s : State} {len bits : Nat}

/-! ### From the acceptance to `Finalized` -/

theorem refusal_dec (hlen : len ≠ 0) (hfit : fitsCapacity c len = true) : refusal c .dec len = none :=
  refusal_none_iff.2 (.inr ⟨rfl, hlen, hfit⟩)

/-- The events of a decode before its checks. -/
def receivedEvents (x : BitString) : List Event :=
  [.input .dec x.length x, .parityPositions (parityPositions (ppid x.length))]

/-- T2, T4 and T5 of a decode whose received word fits. -/
theorem layout_sizing_accept_dec (hfit : fitsCapacity c len = true) :
    layout c (sizing c (accept c .dec len bits)) =
      emit c (receivedEvents (toBits len bits))
        { Regs.reset with
          ph := .layoutBuilt, op := .dec, len := len, inb := bits % 2 ^ len
          r := ppid len, n := len, buf := bits % 2 ^ len } := by
  have hop : (accept c .dec len bits).op = .dec := emit_op ..
  rw [layout_of_dec ((sizing_frame c _).1.trans hop), sizing_of_dec hop]
  simp only [accept, emit_eq, receivedEvents, latch, heldLen_of_fits hfit, toBits_mod, toBits_length, reset_trace,
    Nat.mod_mod]
  cases c.traceEn <;> rfl

/-- The parity phase of a decode, which has at least one check. -/
theorem parityActions_of_dec (hop : σ.op = .dec) (hr : 0 < σ.r) :
    parityActions c σ =
      emit c ((List.range σ.r).map (parityEvent σ.buf σ.n))
        { σ with
          ph := .parityBits, k := σ.r - 1
          chk := (List.range σ.r).foldl (fun chk k => checkUnit σ.buf σ.n k chk) σ.chk } := by
  obtain ⟨m, hm⟩ : ∃ m, σ.r = m + 1 := ⟨σ.r - 1, by omega⟩
  rw [parityActions, emit_eq, hm, parityActions_dec c σ hop]
  simp [hm]

theorem ppid_pos (hlen : len ≠ 0) : 0 < ppid len := by
  rw [ppid_eq_bitlen, lt_bitlen_iff]
  exact Nat.one_le_iff_ne_zero.2 hlen

/-- The registers before T9: the checks of the received word stand in `chk`. -/
theorem beforeFinalize_dec (hlen : len ≠ 0) (hfit : fitsCapacity c len = true) :
    beforeFinalize c .dec len bits =
      emit c (receivedEvents (toBits len bits) ++
          (List.range (ppid len)).map (parityEvent (ofBits (toBits len bits)) len))
        { Regs.reset with
          ph := .parityBits, k := bitlen len - 1, op := .dec, len := len, inb := bits % 2 ^ len
          r := bitlen len, n := len, buf := bits % 2 ^ len, chk := syndromeOf (toBits len bits) } := by
  rw [beforeFinalize, layout_sizing_accept_dec hfit, parityActions_of_dec (emit_op ..) (by simpa using ppid_pos hlen),
    syndromeOf_eq_decodeChecks, decodeChecks]
  simp only [emit_eq, ofBits_toBits, toBits_length, ppid_eq_bitlen]
  cases c.traceEn <;> simp

/-- What `DEC` of a received word that fits leaves. -/
theorem operation_dec (hlen : len ≠ 0) (hfit : fitsCapacity c len = true) :
    operation c .dec len bits =
      emit c (hammingDecode c (toBits len bits)).trace
        { Regs.reset with
          ph := .finalized, k := bitlen len - 1, op := .dec, len := len, inb := bits % 2 ^ len
          r := bitlen len, n := len, buf := bits % 2 ^ len, chk := syndromeOf (toBits len bits)
          status := if len < syndromeOf (toBits len bits) then .uncorrectableSyndrome else .ok
          done := true, fErr := flagErr (syndromeOf (toBits len bits))
          fCorr := flagCorr (locate (syndromeOf (toBits len bits)) len)
          resCw := correctedBits (toBits len bits), resCwLen := len
          resData := ofBits (extract (correctedBits (toBits len bits)) len), resDataLen := len - bitlen len
          resR := bitlen len, resChk := syndromeOf (toBits len bits), resSyndrome := syndromeOf (toBits len bits)
          resErrpos := errorPosition c (locate (syndromeOf (toBits len bits)) len) } := by
  have hs : syndrome (syndromeOf (toBits len bits)) (bitlen len) = syndromeOf (toBits len bits) := by
    have hlt := syndromeOf_lt (toBits len bits)
    rw [toBits_length] at hlt
    rw [syndrome_eq_mod, Nat.mod_eq_of_lt hlt]
  have hcorr : correct (bits % 2 ^ len) (locate (syndromeOf (toBits len bits)) len) =
      correctedBits (toBits len bits) := by
    rw [correctedBits, ofBits_toBits, toBits_length]
  rw [operation_of_valid (refusal_dec hlen hfit), finalize_of_dec (beforeFinalize_frame ..).1, finalizeDec_eq_publish,
    beforeFinalize_dec hlen hfit]
  simp only [emit_eq, Regs.publishDecode, Regs.publish, Regs.decodeEvents, Regs.located, hs, hcorr, hammingDecode,
    decodeTrace, receivedEvents, toBits_length, ofBits_toBits, ← syndromeOf_eq_decodeChecks, ppid_eq_bitlen,
    syndromeEvent]
  cases c.traceEn <;> simp

/-! ### The result registers (R126, R127, R134) -/

/-- The error position, read off the syndrome (R127). -/
theorem errorPosition_locate (c : Params) (s n : Nat) :
    errorPosition c (locate s n) = if n < s then errposUncorr c s else s := by
  obtain h | h := lt_or_ge n s
  · rw [if_pos h, locate_of_lt h, errorPosition]
  · rw [if_neg (not_lt.2 h), locate, if_pos h]
    split
    · next h0 => exact h0.symm
    · rfl

theorem flagErr_eq_decide (s : Nat) : flagErr s = decide (s ≠ 0) := by
  rw [Bool.eq_iff_iff, decide_eq_true_iff, flagErr, bne_iff_ne]

theorem flagCorr_locate (s n : Nat) : flagCorr (locate s n) = decide (1 ≤ s ∧ s ≤ n) :=
  Bool.eq_iff_iff.2 (flagCorr_locate_iff.trans decide_eq_true_iff.symm)

/-- The corrected codeword as a vector. -/
theorem ofBits_correctedCodeword (c : Params) (x : BitString) :
    ofBits (hammingDecode c x).correctedCodeword = correctedBits x := by
  rw [hammingDecode_correctedCodeword, correctedBits_eq]

/-- A command presented to a block that is not busy leaves the registers of the whole operation. -/
theorem exec_not_busy {i : Instr} (hb : busy s.regs = false) :
    exec i s = .next { s with regs := operation s.params (instrOp i) (instrLen i) (instrBits i) } :=
  (exec_eq_perform i s).trans (perform_not_busy hb)

/-- Settles O38: `operation_dec`, with the corrected word and the data as strings and as vectors. -/
theorem decCompletesWithItsResult : Obligations.DecCompletesWithItsResult := by
  intro len bits s hb hlen hfit
  have hlt := syndromeOf_lt (toBits len bits)
  rw [toBits_length] at hlt
  refine ⟨_, exec_not_busy hb, rfl, rfl, ?_⟩
  simp only [instrOp, instrLen, instrBits, operation_dec hlen hfit, ofBits_correctedCodeword,
    errorPosition_locate, flagErr_eq_decide, flagCorr_locate]
  refine ⟨?_, ?_, ?_, ?_, ?_, ?_, ?_, ?_⟩
  · simp [codewordString, hammingDecode]
  · simp [resParityPositions, hammingDecode, ppid_eq_bitlen]
  · simp [resParityRecords, hammingDecode, ppid_eq_bitlen, syndromeOf_eq_decodeChecks]
  · have hdata := toBits_ofBits (extract (correctedBits (toBits len bits)) len)
    rw [extract_length_eq_sub_bitlen] at hdata
    simp [dataString, hammingDecode, hdata]
  · simp [emit_eq, hammingDecode, errorPosition_locate]
  · intro htrace
    simp [htrace]
  · simpa using hlt
  · simp [hammingDecode, errorPosition_locate]

end Sys2Proof.Machine
end

section
/-! PROOFS. `ENC` and `DEC` together: a codeword with at most one error (`41_decoder.md` R135, R136), and the lengths that
leave a syndrome beyond the word (R138). -/

namespace Sys2Proof.Machine

variable {c : Params} {len bits : Nat}

/-! ### Decoding a codeword with at most one error (R135, R136) -/

/-- The data positions of the encoder's buffer read the data. -/
theorem extract_encodeBuffers (d : BitString) :
    extract (encodeBuffers d).1 (d.length + redundancy d.length) = d := by
  refine Eq.trans (List.map_congr_left fun i hi => ?_) (dataPositions_map_codeword d)
  obtain ⟨⟨h1, hn⟩, -⟩ := mem_dataPositions.1 hi
  exact (hammingEncode_codeword_getD d h1 hn).symm

/-- What `DEC` leaves for a codeword with position `q` flipped, or with no error for `q = 0`. -/
theorem operation_dec_flip_codeword (d : BitString) {q : Nat} (hlen : d.length + redundancy d.length ≠ 0)
    (hfit : fitsCapacity c (d.length + redundancy d.length) = true) (hq : q ≤ d.length + redundancy d.length) :
    operation c .dec (d.length + redundancy d.length) (ofBits (flip (hammingEncode d).codeword q)) =
      emit c (hammingDecode c (flip (hammingEncode d).codeword q)).trace
        { Regs.reset with
          ph := .finalized, k := redundancy d.length - 1, op := .dec, len := d.length + redundancy d.length
          inb := ofBits (flip (hammingEncode d).codeword q), r := redundancy d.length
          n := d.length + redundancy d.length, buf := ofBits (flip (hammingEncode d).codeword q), chk := q
          done := true, fErr := decide (q ≠ 0), fCorr := decide (q ≠ 0)
          resCw := (encodeBuffers d).1, resCwLen := d.length + redundancy d.length
          resData := ofBits d, resDataLen := d.length, resR := redundancy d.length, resChk := q
          resSyndrome := q, resErrpos := q } := by
  have hword : (flip (hammingEncode d).codeword q).length = d.length + redundancy d.length := by simp
  have hstring := hword ▸ toBits_ofBits (flip (hammingEncode d).codeword q)
  have hvector := Nat.mod_eq_of_lt (hword ▸ ofBits_lt (flip (hammingEncode d).codeword q))
  have hsyn : syndromeOf (flip (hammingEncode d).codeword q) = q := by
    rw [syndromeOf_flip (by simpa using hq), syndromeOf_codeword, Nat.zero_xor]
  have hcorr : correctedBits (flip (hammingEncode d).codeword q) = (encodeBuffers d).1 := by
    rw [correctedBits_eq, hsyn, flip_flip, ofBits_hammingEncode_codeword]
  have hpos : 1 ≤ q ∧ q ≤ d.length + redundancy d.length ↔ q ≠ 0 := by omega
  rw [operation_dec hlen hfit]
  simp only [hstring, hvector, hsyn, hcorr, extract_encodeBuffers, bitlen_encodedLength, errorPosition_locate,
    flagErr_eq_decide, flagCorr_locate, hpos, if_neg (not_lt.2 hq), Nat.add_sub_cancel, reset_status]

theorem operation_enc_not_busy (hfit : fitsCapacity c (len + redundancy len) = true) :
    busy (operation c .enc len bits) = false :=
  not_busy_iff.2 (.inr (by rw [operation_enc hfit]; simp))

/-- Settles O44: a flip in the codeword's vector is a flip in the string, and `operation_dec_flip_codeword` says what
`DEC` leaves for it. -/
theorem singleErrorIsCorrected : Obligations.SingleErrorIsCorrected := by
  intro len bits q s hb hfit h1 hq
  have hflip := ofBits_flip (x := (hammingEncode (toBits len bits)).codeword) h1 (by simpa using hq)
  rw [ofBits_hammingEncode_codeword] at hflip
  have hdec := operation_dec_flip_codeword (c := s.params) (toBits len bits) (q := q)
  simp only [toBits_length, ofBits_toBits, hflip] at hdec
  refine ⟨_, _, exec_not_busy hb, exec_not_busy (operation_enc_not_busy hfit), ?_⟩
  simp [instrOp, instrLen, instrBits, operation_enc hfit, hdec (by omega) hfit hq, Nat.ne_of_gt h1]

/-- `DEC` of the empty word is refused (R139). -/
theorem operation_dec_empty (c : Params) (bits : Nat) :
    operation c .dec 0 bits = refuse c .emptyInput (accept c .dec 0 bits) :=
  operation_of_refused rfl

/-- Settles O43: `operation_dec_flip_codeword` without an error; the empty codeword is refused. -/
theorem decodeInvertsEncode : Obligations.DecodeInvertsEncode := by
  intro len bits s hb hfit
  refine ⟨_, _, exec_not_busy hb, exec_not_busy (operation_enc_not_busy hfit), ?_⟩
  obtain rfl | hlen := eq_or_ne len 0
  · have hcw : (encodeBuffers []).1 = 0 := rfl
    simp [instrOp, instrLen, operation_enc hfit, operation_dec_empty, refuse, accept, conditionStatus, dataString,
      toBits, hcw, Nat.mod_one]
  · have hdec := operation_dec_flip_codeword (c := s.params) (toBits len bits) (q := 0)
    simp only [flip_zero, toBits_length, ofBits_toBits, ofBits_hammingEncode_codeword] at hdec
    simp [instrOp, instrLen, instrBits, operation_enc hfit, hdec (by omega) hfit (Nat.zero_le _), dataString,
      toBits_mod, hlen]

/-! ### Uncorrectable syndromes (R138) -/

/-- `DEC` reports an uncorrectable syndrome exactly where it exceeds the length. -/
theorem operation_dec_uncorrectable_iff (hlen : len ≠ 0) (hfit : fitsCapacity c len = true) :
    (operation c .dec len bits).status = .uncorrectableSyndrome ↔ len < syndromeOf (toBits len bits) := by
  simp [operation_dec hlen hfit]

/-- Settles O49: the syndromes of words of length `n` are the numbers below `2^r`, and `n + 1` is the first one beyond
the word. -/
theorem uncorrectableExactlyWhenLengthIsShort : Obligations.UncorrectableExactlyWhenLengthIsShort := by
  refine ⟨fun n v hv => exists_syndromeOf_eq (ppid_eq_bitlen n ▸ hv), fun n s hn hb hfit => ?_⟩
  have hbound : n < 2 ^ ppid n := ppid_eq_bitlen n ▸ lt_two_pow_bitlen n
  constructor
  · rintro ⟨bits, t, ht, hstatus⟩
    cases (exec_not_busy hb).symm.trans ht
    have hbeyond : n < syndromeOf (toBits n bits) := (operation_dec_uncorrectable_iff hn hfit).1 hstatus
    have hlt := syndromeOf_lt (toBits n bits)
    rw [toBits_length, ← ppid_eq_bitlen] at hlt
    omega
  · intro hne
    obtain ⟨x, rfl, hx⟩ := exists_syndromeOf_eq (n := n) (v := n + 1) (by rw [← ppid_eq_bitlen]; omega)
    have hbeyond : x.length < syndromeOf (toBits x.length (ofBits x)) := by
      rw [toBits_ofBits, hx]
      exact Nat.lt_succ_self _
    exact ⟨ofBits x, _, exec_not_busy hb, (operation_dec_uncorrectable_iff hn hfit).2 hbeyond⟩

end Sys2Proof.Machine
end

section
/-! PROOFS. The transitions T0 to T9 row by row (`42_sequencer.md` R150 to R163): what each writes and what it leaves. -/

namespace Sys2Proof.Machine

variable {c : Params} {p : Pins} {σ : Regs} {evs : List Event}

/-! ### What an event leaves -/

/-- An event leaves every register but the trace. -/
theorem emit_eq_setTrace (c : Params) (evs : List Event) (σ : Regs) :
    emit c evs σ = { σ with trace := (emit c evs σ).trace } := by
  rw [emit_trace, emit_eq]

theorem emit_trace_of_traceEn (h : c.traceEn = true) : (emit c evs σ).trace = σ.trace ++ evs := by
  rw [emit_trace, if_pos h]

/-! ### Reset, hold and acceptance (R151 to R153) -/

/-- Settles O10: the reset state, register by register. -/
theorem resetGivesTheResetState : Obligations.ResetGivesTheResetState := by
  intro c p σ hrst
  refine ⟨_, tick_rst hrst, ?_⟩
  simp [busy, State.reset]

/-- Settles O11. -/
theorem holdChangesNothing : Obligations.HoldChangesNothing :=
  fun _ _ _ hrst hph hv => tick_hold hrst hv hph

/-- The symbols held of an operand are those below `len` for which the port has a wire. -/
theorem lt_heldLen_iff {len j : Nat} :
    j < heldLen c len ↔ j < len ∧ ∀ nMax, c.nMax = some nMax → j < nMax := by
  cases hc : c.nMax <;> simp [heldLen, hc]

/-- Settles O12: every register is given by `accept`, and the bits of `inb` by `latch`. -/
theorem acceptanceLatchesTheCommand : Obligations.AcceptanceLatchesTheCommand := by
  intro c p σ hrst hph hv
  refine ⟨_, tick_accept hrst hv hph, fun j => ?_, ?_, fun htrace => ⟨_, emit_trace_of_traceEn htrace, ?_, fun j => ?_⟩⟩
  · rw [accept_inb, latch, Nat.testBit_mod_two_pow]
    simp only [lt_heldLen_iff]
  · rw [accept_inb]
    exact emit_eq_setTrace _ _ _
  · rw [toBits_length]
    rfl
  · rw [accept_inb, toBits_getD, latch, Nat.testBit_mod_two_pow, ← Bool.and_assoc, Bool.and_self]

/-! ### Refusal and sizing (R154, R155) -/

theorem refusal_dec_empty (c : Params) : refusal c .dec 0 = some .emptyInput := rfl

/-- The operands that do not fit are refused, but for the empty word of a decode. -/
theorem refusal_of_overflow {op : Op} {len nMax : Nat} (hc : c.nMax = some nMax)
    (h : (op = .dec ∧ len ≠ 0 ∧ nMax < len) ∨ (op = .enc ∧ nMax < len + redundancy len)) :
    refusal c op len = some .lengthOverflow := by
  obtain ⟨rfl, hlen, hover⟩ | ⟨rfl, hover⟩ := h 
  · simp [refusal, fitsCapacity, hc, hlen, hover]
  · simp [refusal, fitsCapacity, hc, hover]

/-- Settles O13: the two conditions of `refusal`, each of which `refuse` reports. -/
theorem invalidOperandsAreRefused : Obligations.InvalidOperandsAreRefused := by
  refine fun c p σ hrst hph => ⟨fun hop hlen => ?_, fun nMax hc h => ?_⟩
  · have hr : refusal c σ.op σ.len = some .emptyInput := by rw [hop, hlen, refusal_dec_empty]
    exact ⟨_, tick_inputReceived_invalid hrst hph hr, emit_eq_setTrace _ _ _, emit_trace_of_traceEn⟩
  · exact ⟨_, tick_inputReceived_invalid hrst hph (refusal_of_overflow hc h), emit_eq_setTrace _ _ _,
      emit_trace_of_traceEn⟩

/-- Settles O14: `sizing`, with `PPID` counting the binary digits of the length. -/
theorem sizingSetsLengthAndParityCount : Obligations.SizingSetsLengthAndParityCount := by
  refine fun c p σ hrst hph => ⟨fun hop hfit => ?_, fun hop hlen hfit => ?_⟩
  · refine ⟨_, tick_inputReceived_valid hrst hph (hop ▸ refusal_enc hfit), ?_⟩
    rw [sizing_of_enc hop]
    exact ⟨emit_eq_setTrace _ _ _, emit_trace_of_traceEn⟩
  · refine ⟨_, tick_inputReceived_valid hrst hph (hop ▸ refusal_dec hlen hfit), ?_⟩
    rw [sizing_of_dec hop, ppid_eq_bitlen]
    exact ⟨emit_eq_setTrace _ _ _, emit_trace_of_traceEn⟩

/-! ### Layout (R156) -/

theorem op_eq_enc_or_dec (op : Op) : op = .enc ∨ op = .dec := by cases op <;> simp

/-- Settles O15: `PLACE` for an encode, the first `n` bits of `inb` for a decode. -/
theorem layoutPlacesOrCopies : Obligations.LayoutPlacesOrCopies := by
  intro c p σ hrst hph
  refine ⟨_, tick_sizingComputed hrst hph, ?_⟩
  obtain hop | hop := op_eq_enc_or_dec σ.op
  · rw [layout_of_enc hop, emit_buf]
    exact ⟨emit_eq_setTrace _ _ _, place_lt _ _, fun _ => ⟨rfl, emit_trace_of_traceEn⟩,
      fun hdec => absurd (hop.symm.trans hdec) nofun⟩
  · rw [layout_of_dec hop]
    refine ⟨rfl, Nat.mod_lt _ (Nat.two_pow_pos _), fun henc => absurd (hop.symm.trans henc) nofun,
      fun _ => ⟨rfl, fun i h1 hi => ?_⟩⟩
    have hlt : i - 1 < σ.n := by omega
    simp [memRead, Nat.testBit_mod_two_pow, hlt]

/-! ### The parity steps (R157, R158, R161) -/

theorem tick_of_nextParity {j : Nat} (hrst : p.rst = false) (hj : σ.NextParity j) (hr : j < σ.r) :
    tick c p σ = some (parityAction c j σ) := by
  obtain ⟨hph, rfl⟩ | ⟨hph, rfl⟩ := hj
  · exact tick_layoutBuilt hrst hph hr
  · exact tick_parityBits hrst hph hr

/-- With no parity left the operation is finalised; a decode has at least one. -/
theorem tick_of_nextParity_last (hrst : p.rst = false) (hj : σ.NextParity σ.r) (hop : σ.op = .enc ∨ 0 < σ.r) :
    tick c p σ = some (finalize c σ) := by
  obtain ⟨hph, hr⟩ | ⟨hph, hk⟩ := hj
  · have henc : σ.op = .enc := hop.resolve_right (by omega)
    rw [finalize_of_enc henc]
    exact tick_layoutBuilt_zero hrst hph hr henc
  · exact tick_parityBits_last hrst hph hk.symm

/-- Settles O16: one bit of `chk`, and for an encode one position of `buf`, is written with the parity of the cover. -/
theorem parityStepWritesOneBit : Obligations.ParityStepWritesOneBit := by
  intro c p σ j hrst hj hr
  refine ⟨_, tick_of_nextParity hrst hj hr, ?_⟩
  obtain hop | hop := op_eq_enc_or_dec σ.op
  · rw [parityAction_of_enc hop, emit_buf, emit_chk]
    refine ⟨emit_eq_setTrace _ _ _, fun b => testBit_setBit .., fun _ i hi => memRead_memWrite Nat.one_le_two_pow hi,
      fun hdec => absurd (hop.symm.trans hdec) nofun, fun htrace => ?_⟩
    rw [emit_trace_of_traceEn htrace, testBit_setBit, if_pos rfl]
    rfl
  · rw [parityAction_of_dec hop, emit_buf, emit_chk]
    refine ⟨emit_eq_setTrace _ _ _, fun b => testBit_setBit .., fun henc => absurd (hop.symm.trans henc) nofun,
      fun _ => rfl, fun htrace => ?_⟩
    rw [emit_trace_of_traceEn htrace, checkUnit, testBit_setBit, if_pos rfl]
    rfl

/-! ### The results (R159, R160) -/

/-- A string read off a vector is its positions in order. -/
theorem toBits_eq_positions (n x : Nat) : toBits n x = (positions n).map (memRead x) := by
  rw [toBits, positions, List.range'_eq_map_range, List.map_map]
  refine List.map_congr_left fun j _ => ?_
  simp [memRead]

/-- Settles O17: T8 from either of its two phases. -/
theorem encodeIsPublished : Obligations.EncodeIsPublished := by
  intro c p σ hrst hop hph
  have hlast : σ.NextParity σ.r := by
    rcases hph with ⟨hph, hr⟩ | ⟨hph, hk⟩
    · exact .inl ⟨hph, hr⟩
    · exact .inr ⟨hph, hk.symm⟩
  refine ⟨_, tick_of_nextParity_last hrst hlast (.inl hop), ?_⟩
  rw [finalize_of_enc hop, ← toBits_eq_positions]
  exact ⟨emit_eq_setTrace _ _ _, emit_trace_of_traceEn⟩

/-- What `CORRECT` leaves at each position, read off the syndrome. -/
theorem memRead_correct_locate (buf s n : Nat) {i : Nat} (hi : 1 ≤ i) :
    memRead (correct buf (locate s n)) i = (memRead buf i ^^ decide (i = s ∧ s ≤ n)) := by
  have hloc : ∀ t, locate s n = .correct t ↔ 1 ≤ s ∧ t = s ∧ s ≤ n := fun t => by
    unfold locate
    split
    · simp; omega
    · split <;> simp <;> omega
  rw [memRead_correct buf _ hi fun t ht => by have := (hloc t).1 ht; omega]
  refine congrArg _ (decide_eq_decide.2 ((hloc i).trans ?_))
  omega

/-- What the correction event says, read off the syndrome (R170). -/
theorem correctionOf_locate (buf s n : Nat) :
    correctionOf buf (locate s n) =
      if s = 0 then .noError else if s ≤ n then .corrected s (memRead buf s) (!memRead buf s) else .uncorrectable s := by
  unfold locate
  split
  · rfl
  · next h0 =>
    split
    · have hs : 1 ≤ s := Nat.one_le_iff_ne_zero.2 h0
      rw [correctionOf, correct, memRead_memWrite hs hs, if_pos rfl]
    · rfl

/-- Settles O18: the registers of `finalizeDec_eq_publish`, each of them read off the syndrome. -/
theorem decodeIsPublished : Obligations.DecodeIsPublished := by
  intro c p σ hrst hop hph hk
  refine ⟨_, tick_parityBits_last hrst hph hk, ?_⟩
  rw [finalize_of_dec hop, finalizeDec_eq_publish]
  simp only [emit_status, emit_resCw, emit_resData, emit_resSyndrome, emit_resErrpos, emit_fErr, emit_fCorr]
  refine ⟨emit_eq_setTrace _ _ _, rfl, fun i hi => memRead_correct_locate _ _ _ hi, rfl, rfl,
    errorPosition_locate .., flagErr_eq_decide _, flagCorr_locate .., fun htrace => ?_⟩
  rw [emit_trace_of_traceEn htrace, Regs.decodeEvents, Regs.located, correctionOf_locate]
  rfl

/-! ### The busy block, and `Finalized` (R162, R163) -/

/-- Settles O19. -/
theorem busyIgnoresTheCommandPort : Obligations.BusyIgnoresTheCommandPort :=
  fun _ _ _ _ hb hrst => tick_congr_of_busy hb hrst

/-- Settles O20: an instruction in a busy state is an edge, and the port is not looked at. -/
theorem commandWhileBusyIsLost : Obligations.CommandWhileBusyIsLost := by
  intro i s t hb ht
  obtain ⟨hidle, -⟩ | ⟨-, τ, hτ, rfl⟩ := exec_next ht
  · rw [hb] at hidle; cases hidle
  · have hquiet : tick s.params quietPins s.regs = some τ :=
      (tick_congr_of_busy (p := quietPins) (q := presentPins i) hb rfl).trans hτ
    exact ⟨clock_eq hquiet, hquiet, rfl, rfl⟩

/-- Settles O21: by the two ports that `Finalized` looks at. -/
theorem finalizedHoldsItsResults : Obligations.FinalizedHoldsItsResults := by
  intro c p σ hph
  cases hrst : p.rst
  case true => exact .inl ⟨rfl, tick_rst hrst⟩
  cases hv : p.cmdValid
  case false => exact .inr (.inl ⟨rfl, rfl, tick_hold hrst hv (.inr hph)⟩)
  case true => exact .inr (.inr ⟨rfl, rfl, _, tick_accept hrst hv (.inr hph), emit_ph ..⟩)

/-! ### Steps on edges (R150) -/

theorem step_edge {s : State} {rest : List HostAct} (hh : s.host = .edge p :: rest)
    (hp : pinsOnPort s.params p = true) : step s = clock p { s with host := rest } := by
  simp [step, hh, stepEdge, hp]

theorem step_nothing_listed {s : State} (hh : s.host = []) : step s = clock quietPins s := by
  simp [step, hh]

/-- Settles O8. -/
theorem stepOfAnEdgeIsTheSequencers : Obligations.StepOfAnEdgeIsTheSequencers :=
  ⟨fun _ _ _ _ hh hp hτ => (step_edge hh hp).trans (clock_eq hτ),
    fun _ _ hh hτ => (step_nothing_listed hh).trans (clock_eq hτ)⟩

end Sys2Proof.Machine
end

section
/-! PROOFS. The phases of an operation, edge by edge (`42_sequencer.md` R164 to R168): the edges run the operation. -/

namespace Sys2Proof.Machine

variable {c : Params} {p : Pins} {σ : Regs} {op : Op} {len bits : Nat}

/-! ### The order of the phases (R164) -/

theorem refuse_ph (c : Params) (cond : Condition) (σ : Regs) : (refuse c cond σ).ph = .finalized := emit_ph ..

theorem finalize_ph (c : Params) (σ : Regs) : (finalize c σ).ph = .finalized := by
  cases hop : σ.op
  · rw [finalize_of_enc hop]; exact emit_ph ..
  · rw [finalize_of_dec hop]; exact emit_ph ..

/-- Settles O22: by the rows of the table of transitions. -/
theorem phasesGoForwardOnly : Obligations.PhasesGoForwardOnly := by
  intro c p σ τ _ hrst hb h
  obtain ⟨hrst', -⟩ | ⟨-, ⟨hph, -⟩ | ⟨hph, ⟨cond, hr, rfl⟩ | ⟨-, rfl⟩⟩ | ⟨hph, rfl⟩ |
    ⟨hph, ⟨-, rfl⟩ | ⟨hr, -, rfl⟩⟩ | ⟨hph, ⟨-, rfl⟩ | ⟨hk, rfl⟩⟩⟩ := tick_cases h
  · rw [hrst] at hrst'; cases hrst'
  · rw [not_busy_iff.2 hph] at hb; cases hb
  · exact .inl ⟨hph, .inr ⟨refuse_ph .., by simp [hr]⟩⟩
  · exact .inl ⟨hph, .inl (sizing_ph ..)⟩
  · exact .inr (.inl ⟨hph, layout_ph ..⟩)
  · obtain ⟨hph', hk, -⟩ := parityAction_frame (c := c) 0 σ
    exact .inr (.inr (.inl ⟨hph, .inl ⟨hph', hk⟩⟩))
  · exact .inr (.inr (.inl ⟨hph, .inr ⟨emit_ph .., hr⟩⟩))
  · obtain ⟨hph', hk, -⟩ := parityAction_frame (c := c) (σ.k + 1) σ
    exact .inr (.inr (.inr ⟨hph, .inl ⟨hph', hk⟩⟩))
  · exact .inr (.inr (.inr ⟨hph, .inr ⟨finalize_ph .., hk⟩⟩))

/-! ### The registers within an operation, edge by edge (R166) -/

/-- The registers of a valid command once its layout is built. -/
def laidOut (c : Params) (op : Op) (len bits : Nat) : Regs := layout c (sizing c (accept c op len bits))

/-- The registers of a command `m` edges after the accepting one, while its operation is in progress: accepted, sized,
laid out, then with one more parity after each edge. -/
def stage (c : Params) (op : Op) (len bits : Nat) : Nat → Regs
  | 0 => accept c op len bits
  | 1 => sizing c (accept c op len bits)
  | m + 2 => (List.range m).foldl (fun τ j => parityAction c j τ) (laidOut c op len bits)

theorem stage_add_three (m : Nat) : stage c op len bits (m + 3) = parityAction c m (stage c op len bits (m + 2)) := by
  rw [stage, stage, List.range_succ, List.foldl_append, List.foldl_cons, List.foldl_nil]

theorem accept_frame (c : Params) (op : Op) (len bits : Nat) :
    (accept c op len bits).ph = .inputReceived ∧ (accept c op len bits).op = op ∧
      (accept c op len bits).len = len ∧ (accept c op len bits).done = false := by
  simp [accept]

/-- How many parities `sizing` asks for. -/
theorem sizing_r (c : Params) (σ : Regs) :
    (sizing c σ).r = (match σ.op with | .enc => redundancy σ.len | .dec => ppid σ.len) := by
  cases hop : σ.op <;> simp [sizing_of_enc, sizing_of_dec, hop]

theorem sizing_done (c : Params) (σ : Regs) : (sizing c σ).done = σ.done := by
  cases hop : σ.op <;> simp [sizing_of_enc, sizing_of_dec, hop]

theorem layout_r_done (c : Params) (σ : Regs) : (layout c σ).r = σ.r ∧ (layout c σ).done = σ.done := by
  cases hop : σ.op <;> simp [layout_of_enc, layout_of_dec, hop]

theorem finalize_r (c : Params) (σ : Regs) : (finalize c σ).r = σ.r := by
  cases hop : σ.op
  · simp [finalize_of_enc hop, finalizeEnc]
  · simp [finalize_of_dec hop, finalizeDec]

theorem operationSteps_of_refused {cond : Condition} (hr : refusal c op len = some cond) :
    operationSteps c op len = 2 := by
  simp [operationSteps, hr]

/-- A valid command takes four edges and one for each parity (R168). -/
theorem operationSteps_of_valid (hr : refusal c op len = none) :
    operationSteps c op len = (laidOut c op len bits).r + 4 := by
  obtain ⟨-, hop, hlen, -⟩ := accept_frame c op len bits
  rw [laidOut, (layout_r_done ..).1, sizing_r, hop, hlen]
  cases op <;> simp [operationSteps, hr]

/-- From the layout on the parity with the next index is due, and nothing but the parities is written. -/
theorem stage_add_two_frame (c : Params) (op : Op) (len bits m : Nat) :
    (stage c op len bits (m + 2)).NextParity m ∧ (stage c op len bits (m + 2)).op = op ∧
      (stage c op len bits (m + 2)).r = (laidOut c op len bits).r ∧ (stage c op len bits (m + 2)).done = false := by
  induction m with
  | zero =>
    obtain ⟨-, hop, -, hdone⟩ := accept_frame c op len bits
    refine ⟨.inl ⟨layout_ph .., rfl⟩, ?_, rfl, ?_⟩
    · exact (layout_frame ..).1.trans ((sizing_frame ..).1.trans hop)
    · exact (layout_r_done ..).2.trans ((sizing_done ..).trans hdone)
  | succ m ih =>
    obtain ⟨-, hop, hr, hdone⟩ := ih
    rw [stage_add_three]
    obtain ⟨hph, hk, hop', hr', -, hdone'⟩ := parityAction_frame (c := c) m (stage c op len bits (m + 2))
    exact ⟨.inr ⟨hph, by rw [hk]⟩, hop'.trans hop, hr'.trans hr, hdone'.trans hdone⟩

theorem Regs.NextParity.busy {j : Nat} (hj : σ.NextParity j) : busy σ = true := by
  obtain ⟨hph, -⟩ | ⟨hph, -⟩ := hj <;> simp [Machine.busy, hph]

/-- While an operation is in progress the block is busy and no result is valid (R163, R32). -/
theorem stage_busy (c : Params) (op : Op) (len bits : Nat) :
    ∀ m, busy (stage c op len bits m) = true ∧ (stage c op len bits m).done = false
  | 0 => by
    obtain ⟨hph, -, -, hdone⟩ := accept_frame c op len bits
    exact ⟨by simp [stage, busy, hph], hdone⟩
  | 1 => by
    obtain ⟨-, -, -, hdone⟩ := accept_frame c op len bits
    exact ⟨by simp [stage, busy, sizing_ph], (sizing_done ..).trans hdone⟩
  | m + 2 => by
    obtain ⟨hnext, -, -, hdone⟩ := stage_add_two_frame c op len bits m
    exact ⟨hnext.busy, hdone⟩

/-- A valid command has a parity to compute, but for the encode of the empty string. -/
theorem laidOut_r_pos (hr : refusal c op len = none) : op = .enc ∨ 0 < (laidOut c op len bits).r := by
  obtain ⟨rfl, -⟩ | ⟨rfl, hlen, -⟩ := refusal_none_iff.1 hr
  · exact .inl rfl
  · obtain ⟨-, hop, hlen', -⟩ := accept_frame c .dec len bits
    refine .inr ?_
    rw [laidOut, (layout_r_done ..).1, sizing_r, hop, hlen']
    exact ppid_pos hlen

theorem operation_of_valid_eq_stage (hr : refusal c op len = none) :
    operation c op len bits = finalize c (stage c op len bits ((laidOut c op len bits).r + 2)) :=
  operation_of_valid hr

/-- Each edge but the last takes the operation to its next stage. -/
theorem tick_stage {m : Nat} (hrst : p.rst = false) (hm : m + 2 < operationSteps c op len) :
    tick c p (stage c op len bits m) = some (stage c op len bits (m + 1)) := by
  cases hr : refusal c op len with
  | some cond => rw [operationSteps_of_refused hr] at hm; omega
  | none =>
    rw [operationSteps_of_valid (bits := bits) hr] at hm
    obtain ⟨hph, hop, hlen, -⟩ := accept_frame c op len bits
    match m with
    | 0 => exact tick_inputReceived_valid hrst hph (by rw [stage, hop, hlen, hr])
    | 1 => exact tick_sizingComputed hrst (sizing_ph ..)
    | m + 2 =>
      obtain ⟨hnext, -, hcount, -⟩ := stage_add_two_frame c op len bits m
      rw [stage_add_three]
      exact tick_of_nextParity hrst hnext (by omega)

/-- The last edge ends the operation. -/
theorem tick_stage_last {m : Nat} (hrst : p.rst = false) (hm : m + 2 = operationSteps c op len) :
    tick c p (stage c op len bits m) = some (operation c op len bits) := by
  obtain ⟨hph, hop, hlen, -⟩ := accept_frame c op len bits
  cases hr : refusal c op len with
  | some cond =>
    rw [operationSteps_of_refused hr] at hm
    obtain rfl : m = 0 := by omega
    rw [operation_of_refused hr]
    exact tick_inputReceived_invalid hrst hph (by rw [stage, hop, hlen, hr])
  | none =>
    rw [operationSteps_of_valid (bits := bits) hr] at hm
    obtain rfl : m = (laidOut c op len bits).r + 2 := by omega
    obtain ⟨hnext, hop', hcount, -⟩ := stage_add_two_frame c op len bits (laidOut c op len bits).r
    rw [operation_of_valid_eq_stage hr]
    refine tick_of_nextParity_last hrst (by rwa [hcount]) ?_
    rw [hop', hcount]
    exact laidOut_r_pos hr

/-- After the accepting edge the edges of an operation go through its stages, whatever the ports show. -/
theorem ticks_stage {ps : List Pins} (hps : ∀ q ∈ ps, q.rst = false) {m : Nat}
    (hm : m + ps.length + 1 < operationSteps c op len) :
    ticks c ps (stage c op len bits m) = some (stage c op len bits (m + ps.length)) := by
  induction ps generalizing m with
  | nil => rfl
  | cons q ps ih =>
    obtain ⟨hq, hps⟩ := List.forall_mem_cons.1 hps
    rw [List.length_cons] at hm ⊢
    rw [ticks, tick_stage hq (by omega)]
    exact (ih hps (by omega)).trans (by rw [Nat.add_right_comm, Nat.add_assoc])

variable {ps : List Pins}

/-- A command presented to a block that is not busy is at stage `m` after `m` more edges. -/
theorem ticks_accept (hb : busy σ = false) (hrst : p.rst = false) (hv : p.cmdValid = true)
    (hps : ∀ q ∈ ps, q.rst = false) (hlen : ps.length + 1 < operationSteps c p.cmdOp p.cmdLen) :
    ticks c (p :: ps) σ = some (stage c p.cmdOp p.cmdLen p.cmdBits ps.length) := by
  rw [ticks, tick_accept hrst hv (not_busy_iff.1 hb)]
  exact (ticks_stage (m := 0) hps (by omega)).trans (by rw [Nat.zero_add])

theorem two_le_operationSteps (c : Params) (op : Op) (len : Nat) : 2 ≤ operationSteps c op len := by
  cases hr : refusal c op len with
  | some cond => exact (operationSteps_of_refused hr).ge
  | none => rw [operationSteps_of_valid (bits := 0) hr]; omega

theorem ticks_singleton (c : Params) (p : Pins) (σ : Regs) : ticks c [p] σ = tick c p σ := by
  rw [ticks]
  cases tick c p σ <;> rfl

/-- With the last of its edges the command has run as a whole. -/
theorem ticks_operation (hb : busy σ = false) (hrst : p.rst = false) (hv : p.cmdValid = true)
    (hps : ∀ q ∈ ps, q.rst = false) (hlen : ps.length + 1 = operationSteps c p.cmdOp p.cmdLen) :
    ticks c (p :: ps) σ = some (operation c p.cmdOp p.cmdLen p.cmdBits) := by
  have htwo := two_le_operationSteps c p.cmdOp p.cmdLen
  obtain rfl | ⟨qs, q, rfl⟩ := List.eq_nil_or_concat' ps
  · simp at hlen; omega
  · rw [List.length_append, List.length_singleton] at hlen
    obtain ⟨hqs, hq⟩ : (∀ q ∈ qs, q.rst = false) ∧ q.rst = false :=
      ⟨fun q hq => hps q (List.mem_append_left _ hq), hps q (List.mem_append_right _ (List.mem_singleton_self q))⟩
    rw [← List.cons_append, ticks_append, ticks_accept hb hrst hv hqs (by omega), Option.bind_some, ticks_singleton,
      tick_stage_last hq (by omega)]

theorem operation_ph (c : Params) (op : Op) (len bits : Nat) : (operation c op len bits).ph = .finalized := by
  cases hr : refusal c op len with
  | some cond => rw [operation_of_refused hr, refuse_ph]
  | none => rw [operation_of_valid hr, finalize_ph]

/-- Settles O40: the edges go through the stages of the operation, and end it. -/
theorem sequencerRunsTheOperation : Obligations.SequencerRunsTheOperation := by
  intro c σ p ps hb hrst hv hps hlen
  refine ⟨ticks_operation hb hrst hv hps hlen, operation_ph .., fun hr => ?_, fun hr => ?_, fun m hm => ?_⟩
  · rw [operationSteps_of_valid (bits := p.cmdBits) hr, operation_of_valid_eq_stage hr, finalize_r]
    obtain ⟨-, -, hcount, -⟩ :=
      stage_add_two_frame c p.cmdOp p.cmdLen p.cmdBits (laidOut c p.cmdOp p.cmdLen p.cmdBits).r
    rw [hcount]
  · obtain ⟨cond, hcond⟩ := Option.ne_none_iff_exists'.1 hr
    exact operationSteps_of_refused hcond
  · refine ⟨_, ticks_accept hb hrst hv (fun q hq => hps q (List.mem_of_mem_take hq)) ?_, stage_busy ..⟩
    rw [List.length_take]
    omega

/-- Settles O41: within the operation by its stages, at its end by `operation_ph`. -/
theorem phaseSequence : Obligations.PhaseSequence := by
  intro c σ p ps hb hrst hv hps hlen
  obtain hlast | hmid := eq_or_lt_of_le (Nat.succ_le_of_lt hlen)
  · have htwo := two_le_operationSteps c p.cmdOp p.cmdLen
    refine ⟨_, ticks_operation hb hrst hv hps hlast, fun h0 => by omega, fun hr => ?_, fun _ => operation_ph ..⟩
    rw [operationSteps_of_valid (bits := p.cmdBits) hr] at hlast ⊢
    exact ⟨fun h1 => by omega, fun h2 => by omega, fun k hk hlt => by omega⟩
  · refine ⟨_, ticks_accept hb hrst hv hps hmid, fun h0 => ?_, fun _ => ⟨fun h1 => ?_, fun h2 => ?_, fun k hk _ => ?_⟩,
      fun hlast => by omega⟩
    · rw [h0]; exact (accept_frame ..).1
    · rw [h1]; exact sizing_ph ..
    · rw [h2]; exact layout_ph ..
    · rw [hk, stage_add_three]
      obtain ⟨hph, hk', -⟩ := parityAction_frame (c := c) k (stage c p.cmdOp p.cmdLen p.cmdBits (k + 2))
      exact ⟨hph, hk'⟩

/-! ### The machine on listed edges (R150, R167) -/

/-- Listed edges that the port carries run as the sequencer's steps do. -/
theorem run_edges {rest : List HostAct} {s : State} {τ : Regs} (hps : ∀ q ∈ ps, pinsOnPort s.params q = true)
    (hh : s.host = ps.map .edge ++ rest) (hτ : ticks s.params ps s.regs = some τ) :
    Host.Core.run Sys2Proof.core ps.length s = .next { s with host := rest, regs := τ } := by
  induction ps generalizing s with
  | nil =>
    cases hτ
    cases hh
    rfl
  | cons q ps ih =>
    obtain ⟨hq, hps⟩ := List.forall_mem_cons.1 hps
    rw [ticks] at hτ
    cases hstep : tick s.params q s.regs with
    | none => simp [hstep] at hτ
    | some ρ =>
      rw [hstep] at hτ
      have hnext : Sys2Proof.core.step s = .next { s with host := ps.map .edge ++ rest, regs := ρ } :=
        (step_edge hh hq).trans (clock_eq hstep)
      rw [List.length_cons, run_succ_of_next _ hnext]
      exact ih hps rfl hτ

/-- Settles O42: the listed edges are those of `ticks_operation`. -/
theorem edgesRunTheInstruction : Obligations.EdgesRunTheInstruction := by
  intro s i ps rest hb hwf hps hlen hh
  have hpresent : pinsOnPort s.params (presentPins i) = true := hwf
  have hport : ∀ q ∈ presentPins i :: ps, pinsOnPort s.params q = true :=
    List.forall_mem_cons.2 ⟨hpresent, fun q hq => (hps q hq).2⟩
  have hticks := ticks_operation (p := presentPins i) hb rfl rfl (fun q hq => (hps q hq).1) hlen
  rw [exec_not_busy (s := { s with host := rest }) hb]
  exact run_edges hport hh hticks

end Sys2Proof.Machine
end

section
/-! PROOFS. The block cannot hang (`42_sequencer.md` R164, R168): from a good state there is always a transition, and a step
stops only on what the port cannot carry or the host may not read. -/

namespace Sys2Proof.Machine

variable {c : Params} {p : Pins} {σ : Regs} {s : State} {rest : List HostAct} {op : Op} {len bits : Nat}

/-! ### Transitions and instructions -/

/-- In a good state past the layout there is a parity to compute, but for the encode of the empty string. -/
theorem Regs.Wf.enc_or_r_pos (h : Regs.Wf c σ) (hph : σ.ph = .layoutBuilt) : σ.op = .enc ∨ 0 < σ.r := by
  obtain ⟨hvalid, hn⟩ := h.sized (.inr (.inl hph))
  obtain ⟨henc, -⟩ | ⟨hdec, hlen, -⟩ := refusal_none_iff.1 hvalid
  · exact .inl henc
  · rw [hdec] at hn
    refine .inr ?_
    rw [h.r_eq, hn, ← ppid_eq_bitlen]
    exact ppid_pos hlen

/-- The sequencer has a transition from every good state. -/
theorem exists_tick (h : Regs.Wf c σ) (p : Pins) : ∃ τ, tick c p σ = some τ := by
  cases hrst : p.rst
  case true => exact ⟨_, tick_rst hrst⟩
  cases hb : busy σ
  case false =>
    cases hv : p.cmdValid
    · exact ⟨_, tick_hold hrst hv (not_busy_iff.1 hb)⟩
    · exact ⟨_, tick_accept hrst hv (not_busy_iff.1 hb)⟩
  cases hph : σ.ph
  case idle => rw [not_busy_iff.2 (.inl hph)] at hb; cases hb
  case finalized => rw [not_busy_iff.2 (.inr hph)] at hb; cases hb
  case inputReceived =>
    cases hr : refusal c σ.op σ.len
    · exact ⟨_, tick_inputReceived_valid hrst hph hr⟩
    · exact ⟨_, tick_inputReceived_invalid hrst hph hr⟩
  case sizingComputed => exact ⟨_, tick_sizingComputed hrst hph⟩
  case layoutBuilt =>
    obtain hr | hr := Nat.eq_zero_or_pos σ.r
    · exact ⟨_, tick_of_nextParity_last hrst (.inl ⟨hph, hr⟩) (h.enc_or_r_pos hph)⟩
    · exact ⟨_, tick_layoutBuilt hrst hph hr⟩
  case parityBits =>
    obtain ⟨hk, -⟩ := h.parity_progress hph
    obtain hk | hk := eq_or_lt_of_le (Nat.succ_le_of_lt hk)
    · exact ⟨_, tick_parityBits_last hrst hph hk⟩
    · exact ⟨_, tick_parityBits hrst hph hk⟩

theorem exists_clock (h : State.Inv s) (p : Pins) : ∃ t, clock p s = .next t :=
  let ⟨_, hτ⟩ := exists_tick h.regs p
  ⟨_, clock_eq hτ⟩

theorem exists_exec (h : State.Inv s) (i : Instr) : ∃ t, exec i s = .next t := by
  cases hb : busy s.regs
  · exact ⟨_, exec_not_busy hb⟩
  · rw [exec_eq_perform, perform, if_pos hb]
    exact exists_clock h _

/-! ### The results as operands (R206) -/

/-- The lengths of the results are those of the operation, or 0 where none is published. -/
theorem Regs.Wf.published_or_cleared (h : Regs.Wf c σ) :
    (σ.resCwLen = σ.n ∧ σ.resDataLen + σ.resR = σ.resCwLen) ∨ (σ.resCwLen = 0 ∧ σ.resDataLen = 0) := by
  by_cases hph : σ.ph = .finalized
  case neg => exact .inr ⟨(h.cleared hph).resCwLen, (h.cleared hph).resDataLen⟩
  have hpublished : σ.status = .ok ∨ σ.status = .uncorrectableSyndrome →
      σ.resCwLen = σ.n ∧ σ.resDataLen + σ.resR = σ.resCwLen := fun hst => by
    obtain ⟨hcw, -, -, hdata⟩ := h.published hph hst
    exact ⟨hcw, hdata⟩
  cases hst : σ.status
  case ok => exact .inl (hpublished (.inl hst))
  case uncorrectableSyndrome => exact .inl (hpublished (.inr hst))
  case emptyInput => exact .inr ⟨(h.refused (.inl hst)).resCwLen, (h.refused (.inl hst)).resDataLen⟩
  case lengthOverflow => exact .inr ⟨(h.refused (.inr hst)).resCwLen, (h.refused (.inr hst)).resDataLen⟩

/-- The results fit the capacity, as operands of the next command. -/
theorem Regs.Wf.results_fit (h : Regs.Wf c σ) :
    fitsCapacity c σ.resCwLen = true ∧ fitsCapacity c σ.resDataLen = true := by
  have hle : σ.resCwLen ≤ σ.n ∧ σ.resDataLen ≤ σ.n := by
    obtain ⟨hcw, hdata⟩ | ⟨hcw, hdata⟩ := h.published_or_cleared <;> omega
  exact ⟨fitsCapacity_mono h.n_fits hle.1, fitsCapacity_mono h.n_fits hle.2⟩

/-- A form of command that names a previous result. -/
def CmdForm.NamesResult (f : CmdForm) : Prop := (∃ op flips, f = .prevCodeword op flips) ∨ ∃ op, f = .prevData op

theorem readResult_of_fits {d : BitString} (hdone : σ.done = true) (hfit : fitsCapacity c d.length = true) :
    readResult c σ op d = .ok (instrOfFields op d.length (ofBits d)) := by
  rw [readResult, if_pos hdone, readString_of_fits hfit]

/-- In a good state every result is readable when `done = 1` (R206). -/
theorem exists_readCommand_of_done {f : CmdForm} (h : Regs.Wf c σ) (hf : f.NamesResult) (hdone : σ.done = true) :
    ∃ i, readCommand c σ f = .ok i := by
  obtain ⟨hcw, hdata⟩ := h.results_fit
  obtain ⟨op, flips, rfl⟩ | ⟨op, rfl⟩ := hf
  · exact ⟨_, readResult_of_fits hdone (by rwa [foldl_flip_length, codewordString_length])⟩
  · exact ⟨_, readResult_of_fits hdone (by rwa [dataString_length])⟩

theorem readCommand_of_not_done {f : CmdForm} (hf : f.NamesResult) (hdone : σ.done = false) :
    readCommand c σ f = .error .noResult := by
  obtain ⟨op, flips, rfl⟩ | ⟨op, rfl⟩ := hf <;> simp [readCommand, readResult, hdone]

/-! ### Steps, act by act -/

theorem exists_step_of_read {f : CmdForm} {i : Instr} (h : State.Inv s) (hh : s.host = .command f :: rest)
    (hb : busy s.regs = false) (hi : readCommand s.params s.regs f = .ok i) : ∃ t, step s = .next t := by
  rw [step_command_not_busy hh hb hi]
  exact exists_exec (s := { s with host := rest }) ⟨h.params, h.regs⟩ i

theorem step_command_refused {f : CmdForm} {e : Refusal} (hh : s.host = .command f :: rest)
    (hb : busy s.regs = false) (he : readCommand s.params s.regs f = .error e) : step s = .refused e := by
  simp [step, hh, stepCommand, hb, he]

theorem step_edge_refused (hh : s.host = .edge p :: rest) (hp : pinsOnPort s.params p = false) :
    step s = .refused .notOnPort := by
  simp [step, hh, stepEdge, hp]

theorem exists_step_of_edge (h : State.Inv s) (hh : s.host = .edge p :: rest) (hp : pinsOnPort s.params p = true) :
    ∃ t, step s = .next t := by
  rw [step_edge hh hp]
  exact exists_clock (s := { s with host := rest }) ⟨h.params, h.regs⟩ p

theorem exists_step_of_busy {f : CmdForm} (h : State.Inv s) (hh : s.host = .command f :: rest)
    (hb : busy s.regs = true) : ∃ t, step s = .next t := by
  rw [step_command_busy hh hb]
  exact exists_clock h _

/-- A line on a previous result is carried out, or waits, but for `done = 0` in a block that is not busy. -/
theorem exists_step_of_namesResult {f : CmdForm} (h : State.Inv s) (hh : s.host = .command f :: rest)
    (hf : f.NamesResult) (hready : busy s.regs = true ∨ s.regs.done = true) : ∃ t, step s = .next t := by
  cases hb : busy s.regs
  case true => exact exists_step_of_busy h hh hb
  case false =>
    have hdone : s.regs.done = true := hready.resolve_left (by simp [hb])
    obtain ⟨i, hi⟩ := exists_readCommand_of_done h.regs hf hdone
    exact exists_step_of_read h hh hb hi

/-- What a number that is presented as a word does in a block that is not busy. -/
theorem step_word_cases {w : Nat} (h : State.Inv s) (hh : s.host = .command (.word w) :: rest)
    (hb : busy s.regs = false) :
    (∃ t, step s = .next t) ∨
    (s.params.nMax = none ∧ step s = .refused (.notACommandWord .noWordFormat)) ∨
    (∃ nMax, s.params.nMax = some nMax ∧ 2 ^ wordWidth nMax ≤ w ∧
      step s = .refused (.notACommandWord .tooWide)) := by
  have hrefused : ∀ {e}, decode s.params w = .error e → step s = .refused (.notACommandWord e) := fun he =>
    step_command_refused hh hb (by simp [readCommand, he])
  cases hc : s.params.nMax with
  | none => exact .inr (.inl ⟨rfl, hrefused (decode_of_infinite hc)⟩)
  | some nMax =>
    obtain hw | hw := lt_or_ge w (2 ^ wordWidth nMax)
    · exact .inl (exists_step_of_read h hh hb (readCommand_word (decode_of_lt hc hw)))
    · exact .inr (.inr ⟨nMax, rfl, hw, hrefused (decode_of_ge hc hw)⟩)

/-- What port fields do in a block that is not busy. -/
theorem step_fields_cases (h : State.Inv s) (hh : s.host = .command (.fields op len bits) :: rest)
    (hb : busy s.regs = false) :
    (∃ t, step s = .next t) ∨
    (¬ WellFormed s.params (instrOfFields op len bits) ∧ step s = .refused .notOnPort) := by
  by_cases hwf : WellFormed s.params (instrOfFields op len bits)
  · exact .inl (exists_step_of_read h hh hb (by rw [readCommand, readFields, if_pos hwf]))
  · exact .inr ⟨hwf, step_command_refused hh hb (by rw [readCommand, readFields, if_neg hwf])⟩

/-- What a line on a previous result does in a block that is not busy. -/
theorem step_namesResult_cases {f : CmdForm} (h : State.Inv s) (hh : s.host = .command f :: rest)
    (hf : f.NamesResult) (hb : busy s.regs = false) :
    (∃ t, step s = .next t) ∨ (s.regs.done = false ∧ step s = .refused .noResult) := by
  cases hdone : s.regs.done
  · exact .inr ⟨rfl, step_command_refused hh hb (readCommand_of_not_done hf hdone)⟩
  · exact .inl (exists_step_of_namesResult h hh hf (.inr hdone))

/-- Settles O52: the sequencer by `exists_tick`, a step by the host's act and the form of its command. -/
theorem blockCannotHang : Obligations.BlockCannotHang := by
  refine ⟨fun c p σ h => exists_tick h p, fun i s h => exists_exec h i, fun s h => ?_, fun s op flips rest h hh => ?_⟩
  · match hh : s.host with
    | [] => exact .inl (step_nothing_listed hh ▸ exists_clock h _)
    | .edge p :: rest =>
      cases hp : pinsOnPort s.params p
      · exact .inr (.inl ⟨p, rest, rfl, hp, step_edge_refused hh hp⟩)
      · exact .inl (exists_step_of_edge h hh hp)
    | .command f :: rest =>
      cases hb : busy s.regs
      case true => exact .inl (exists_step_of_busy h hh hb)
      cases f with
      | word w =>
        obtain hnext | ⟨hc, he⟩ | ⟨nMax, hc, hw, he⟩ := step_word_cases h hh hb
        · exact .inl hnext
        · exact .inr (.inr (.inl ⟨w, rest, rfl, rfl, hc, he⟩))
        · exact .inr (.inr (.inr (.inl ⟨w, rest, nMax, rfl, rfl, hc, hw, he⟩)))
      | fields op len bits =>
        obtain hnext | ⟨hwf, he⟩ := step_fields_cases h hh hb
        · exact .inl hnext
        · exact .inr (.inr (.inr (.inr (.inl ⟨op, len, bits, rest, rfl, rfl, hwf, he⟩))))
      | prevCodeword op flips =>
        obtain hnext | ⟨hdone, he⟩ := step_namesResult_cases h hh (.inl ⟨op, flips, rfl⟩) hb
        · exact .inl hnext
        · exact .inr (.inr (.inr (.inr (.inr ⟨op, flips, rest, .inl rfl, rfl, hdone, he⟩))))
      | prevData op =>
        obtain hnext | ⟨hdone, he⟩ := step_namesResult_cases h hh (.inr ⟨op, rfl⟩) hb
        · exact .inl hnext
        · exact .inr (.inr (.inr (.inr (.inr ⟨op, [], rest, .inr rfl, rfl, hdone, he⟩))))
  · obtain hh | hh := hh
    · exact exists_step_of_namesResult h hh (.inl ⟨op, flips, rfl⟩)
    · exact exists_step_of_namesResult h hh (.inr ⟨op, rfl⟩)

end Sys2Proof.Machine
end

section
/-! PROOFS. The number of events in the trace of a command (`42_sequencer.md` R171). -/

namespace Sys2Proof.Machine

variable {c : Params} {len bits : Nat}

theorem trace_length_enc (htrace : c.traceEn = true) (hfit : fitsCapacity c (len + redundancy len) = true) :
    (operation c .enc len bits).trace.length = (operation c .enc len bits).r + 5 := by
  simp [operation_enc hfit, htrace, hammingEncode, encodeTrace]

theorem trace_length_dec (htrace : c.traceEn = true) (hlen : len ≠ 0) (hfit : fitsCapacity c len = true) :
    (operation c .dec len bits).trace.length = (operation c .dec len bits).r + 5 := by
  simp [operation_dec hlen hfit, htrace, hammingDecode, decodeTrace, ppid_eq_bitlen]

/-- Settles O55: the traces of `hammingEncode` and `hammingDecode` counted; a refused command leaves its input and its
condition. -/
theorem traceEventCounts : Obligations.TraceEventCounts := by
  refine fun c op len bits htrace => ⟨fun hr => ?_, fun hr => ?_⟩
  · obtain ⟨rfl, hfit⟩ | ⟨rfl, hlen, hfit⟩ := refusal_none_iff.1 hr
    · exact trace_length_enc htrace hfit
    · exact trace_length_dec htrace hlen hfit
  · obtain ⟨cond, hcond⟩ := Option.ne_none_iff_exists'.1 hr
    simp [operation_of_refused hcond, refuse, accept, htrace]

end Sys2Proof.Machine
end

section
/-! PROOFS. A whole refused command (`60_exceptions.md` R181, R184): its condition and the operand as accepted, every
other register as at reset. -/

namespace Sys2Proof.Machine

variable {c : Params} {op : Op} {len bits : Nat}

/-- The conditions of T3 carry no syndrome: reporting one writes `status` alone (R186). -/
theorem raise_of_refusal {cond : Condition} (hr : refusal c op len = some cond) (σ : Regs) :
    raise cond σ = { σ with status := conditionStatus cond } := by
  obtain ⟨rfl, -, -⟩ | rfl := refusal_some_cases hr
  · rfl
  · rfl

/-- What a refused command leaves: T2 and T3, and no unit in between. -/
theorem operation_refused {cond : Condition} (hr : refusal c op len = some cond) :
    operation c op len bits =
      emit c [.input op len (toBits (heldLen c len) (latch c len bits)), .refused cond]
        { Regs.reset with
          ph := .finalized, op := op, len := len, inb := latch c len bits
          status := conditionStatus cond, done := true } := by
  rw [operation_of_refused hr, refuse, raise_of_refusal hr, accept]
  simp only [emit_eq, reset_trace]
  cases c.traceEn <;> rfl

theorem latch_zero_len (c : Params) (bits : Nat) : latch c 0 bits = 0 := by
  rw [latch, Nat.le_zero.1 (heldLen_le c 0), pow_zero, Nat.mod_one]

/-- Settles O39: the empty word of a decode and the operands that overflow are those `refusal` names, and
`operation_refused` says what such a command leaves. -/
theorem refusedCommandReportsItsCondition : Obligations.RefusedCommandReportsItsCondition := by
  refine ⟨fun bits s hb => ⟨_, exec_not_busy hb, rfl, rfl, ?_⟩,
    fun i s nMax hb hc hover => ⟨_, exec_not_busy hb, rfl, rfl, ?_⟩⟩
  · simp only [instrOp, instrLen, instrBits, operation_refused (refusal_dec_empty s.params), latch_zero_len]
    exact emit_eq_setTrace _ _ _
  · have hr : refusal s.params (instrOp i) (instrLen i) = some .lengthOverflow := by
      cases i with
      | enc len bits => exact refusal_of_overflow hc (.inr ⟨rfl, hover⟩)
      | dec len bits => exact refusal_of_overflow hc (.inl ⟨rfl, Nat.ne_zero_of_lt hover, hover⟩)
    simp only [operation_refused hr, emit_inb]
    exact emit_eq_setTrace _ _ _

end Sys2Proof.Machine
end

section
/-! PROOFS. Results are read only when `done = 1` (`70_reset_and_hazards.md` R206), and a program line then runs on them
(`30_encoding.md` R79, R80). -/

namespace Sys2Proof.Machine

variable {c : Params} {σ : Regs} {op : Op}

theorem Regs.Wf.not_done_of_busy (h : Regs.Wf c σ) (hb : busy σ = true) : σ.done = false := by
  refine Bool.eq_false_iff.2 fun hdone => ?_
  rw [not_busy_iff.2 (.inr (h.done_iff.1 hdone))] at hb
  cases hb

theorem Regs.Wf.cleared_of_not_done (h : Regs.Wf c σ) (hdone : σ.done = false) : Regs.Cleared σ :=
  h.cleared (mt h.done_iff.2 (by simp [hdone]))

/-- Bit `j` of `$cw` after the flips of a line: the bit of `res_cw`, inverted once for each time its position is listed. -/
theorem testBit_flipped_codeword (σ : Regs) (flips : List Nat) (j : Nat) :
    (ofBits (flips.foldl flip (codewordString σ))).testBit j =
      (decide (j < σ.resCwLen) && (σ.resCw.testBit j ^^ decide (flips.count (j + 1) % 2 = 1))) := by
  rw [testBit_ofBits, foldl_flip_getD, codewordString_length, codewordString, toBits_getD]
  by_cases hj : j < σ.resCwLen <;> simp [hj]

/-- What a line on `$cw` spells when `done = 1`. -/
theorem readCommand_prevCodeword (h : Regs.Wf c σ) (hdone : σ.done = true) (flips : List Nat) :
    readCommand c σ (.prevCodeword op flips) =
      .ok (instrOfFields op σ.resCwLen (ofBits (flips.foldl flip (codewordString σ)))) := by
  have hlen : (flips.foldl flip (codewordString σ)).length = σ.resCwLen := by
    rw [foldl_flip_length, codewordString_length]
  rw [readCommand, readResult_of_fits hdone (by rw [hlen]; exact h.results_fit.1), hlen]

/-- What a line on `$data` spells when `done = 1`. -/
theorem readCommand_prevData (h : Regs.Wf c σ) (hdone : σ.done = true) :
    readCommand c σ (.prevData op) = .ok (instrOfFields op σ.resDataLen σ.resData) := by
  rw [readCommand, readResult_of_fits hdone (by rw [dataString_length]; exact h.results_fit.2), dataString_length,
    dataString, ofBits_toBits_of_lt h.resData_lt]

/-- Settles O58: `done` and the result port by the invariant, and a line by what it spells. -/
theorem resultsAreReadOnlyWhenDone : Obligations.ResultsAreReadOnlyWhenDone := by
  refine ⟨fun s h => ⟨h.regs.not_done_of_busy, h.regs.cleared_of_not_done⟩, fun s op flips rest h hh hb hdone => ?_,
    fun s op rest h hh hb hdone => ?_, fun s op flips rest hh hb hdone => ?_⟩
  · exact ⟨_, testBit_flipped_codeword s.regs flips,
      step_command_not_busy hh hb (readCommand_prevCodeword h.regs hdone flips)⟩
  · exact step_command_not_busy hh hb (readCommand_prevData h.regs hdone)
  · obtain hh | hh := hh
    · exact step_command_refused hh hb (readCommand_of_not_done (.inl ⟨op, flips, rfl⟩) hdone)
    · exact step_command_refused hh hb (readCommand_of_not_done (.inr ⟨op, rfl⟩) hdone)

end Sys2Proof.Machine
end
